-- ==== Sys2Proof/Word.lean ====
section
/-! DEFINITION. The word of the Intcode engine: a signed integer, and the range a cell of a given width can hold. -/

namespace Sys2Proof

/-! A word is the content of one memory cell (00_scope.md R5). The spec's values are mathematical integers (R10) and none
of its fields is a bit field, so a word is written `Int`, under its own name so that arithmetic tactics see it; that
it fits the machine's width is `FitsWord`. -/

/-- `WMIN = -2^(WORD_BITS-1)` (R5). -/
def wmin (bits : Nat) : Int := -((2 ^ (bits - 1) : Nat) : Int)

/-- `WMAX = 2^(WORD_BITS-1) - 1` (R5). -/
def wmax (bits : Nat) : Int := ((2 ^ (bits - 1) : Nat) : Int) - 1

/-- A value "fits a word" when it lies in `[WMIN, WMAX]` (R10). -/
abbrev FitsWord (bits : Nat) (v : Int) : Prop := wmin bits ≤ v ∧ v ≤ wmax bits

end Sys2Proof
end

