-- ==== Sys2Proof/Config.lean ====
section
/-! DEFINITION. The implementation parameters of the block (00_scope.md R5 to R9), as plain data: every statement is
about every choice of them. MEM_LEN is no parameter here; it is the length of the memory (R7). -/

namespace Sys2Proof

/-- `OVERFLOW_POLICY` (R6): what ADD and MUL do with a result that does not fit a word. -/
inductive OverflowPolicy where
  /-- The instruction raises ArithmeticOverflow and commits nothing. -/
  | fault
  /-- The exact result is reduced modulo 2^WORD_BITS into the word range. -/
  | wrap
deriving DecidableEq, Repr

/-- `TRACE_PORT` (R9): whether the block has the optional trace output of 60_exceptions.md R217. -/
inductive TracePort where
  | absent
  | present
deriving DecidableEq, Repr

/-- The parameters of one machine, fixed for it (R5, R6, R8, R9). DESIGN CHOICE, safe: they are an argument of the
model, carried in the state (log 1). -/
structure Config where
  /-- `WORD_BITS` (R5). -/
  wordBits : Nat
  /-- `OVERFLOW_POLICY` (R6). -/
  overflowPolicy : OverflowPolicy
  /-- `TICK_BITS` (R8). -/
  tickBits : Nat
  /-- `TRACE_PORT` (R9). -/
  tracePort : TracePort
deriving DecidableEq, Repr

/-- The constraints the spec puts on the parameters: `WORD_BITS >= 16` (R5) and `TICK_BITS >= 32` (R8). -/
abbrev Config.Valid (c : Config) : Prop := 16 ≤ c.wordBits ∧ 32 ≤ c.tickBits

/-- The spec's default of every parameter (the table after R9). -/
def Config.default : Config :=
  { wordBits := 64, overflowPolicy := .fault, tickBits := 64, tracePort := .absent }

end Sys2Proof
end

