-- ==== Sys2Proof/Syntax.lean ====
section
/-! DEFINITION. The instructions as syntax: one constructor per row of spec/opcode_table.json. -/

namespace Sys2Proof

/-- A source parameter, built from its operand cell and its mode digit (30_encoding.md R86, R90). The cell is a whole
word and may be negative; an address is checked only when it is used. -/
inductive Param where
  /-- Mode digit 0: the value is the content of cell `a`. -/
  | position (a : Int)
  /-- Mode digit 1: the value is `v` itself. -/
  | immediate (v : Int)
deriving DecidableEq, Repr

/-- The nine instructions (30_encoding.md R84). A destination is the raw address of its operand cell: a destination
in Immediate mode is no instruction (R91). -/
inductive Instr where
  /-- ADD, OP 1 (41_arithmetic.md R140). -/
  | add (s1 s2 : Param) (dest : Int)
  /-- MUL, OP 2 (41_arithmetic.md R141). -/
  | mul (s1 s2 : Param) (dest : Int)
  /-- IN, OP 3 (42_io.md R150). -/
  | input (dest : Int)
  /-- OUT, OP 4 (42_io.md R151). -/
  | output (src : Param)
  /-- JT, OP 5 (43_jumps.md R160). -/
  | jumpIfTrue (cmp target : Param)
  /-- JF, OP 6 (43_jumps.md R161). -/
  | jumpIfFalse (cmp target : Param)
  /-- LT, OP 7 (44_compare.md R170). -/
  | lessThan (s1 s2 : Param) (dest : Int)
  /-- EQ, OP 8 (44_compare.md R171). -/
  | equals (s1 s2 : Param) (dest : Int)
  /-- HALT, OP 99 (45_halt.md R180). -/
  | halt
deriving DecidableEq, Repr

/-- The operand cell a source parameter stands in (R90, R95). -/
def Param.cell : Param → Int
  | .position a => a
  | .immediate v => v

/-- The operand cells of an instruction, in parameter order (R80, R95). -/
def Instr.cells : Instr → List Int
  | .add s1 s2 dest => [s1.cell, s2.cell, dest]
  | .mul s1 s2 dest => [s1.cell, s2.cell, dest]
  | .input dest => [dest]
  | .output src => [src.cell]
  | .jumpIfTrue cmp target => [cmp.cell, target.cell]
  | .jumpIfFalse cmp target => [cmp.cell, target.cell]
  | .lessThan s1 s2 dest => [s1.cell, s2.cell, dest]
  | .equals s1 s2 dest => [s1.cell, s2.cell, dest]
  | .halt => []

end Sys2Proof
end

