-- ==== Sys2Proof/WellFormed.lean ====
section
/-! DEFINITION. Which instruction terms a machine can hold: each operand cell is one memory cell, so it fits a word. -/

namespace Sys2Proof

/-- Every operand cell fits a word of the machine (00_scope.md R5, 30_encoding.md R90). This is the only check an
instruction term needs: modes and destinations are legal by the shape of `Instr` (R88, R91). -/
abbrev Instr.WellFormed (c : Config) (i : Instr) : Prop := ∀ v ∈ i.cells, FitsWord c.wordBits v

end Sys2Proof
end

