-- ==== Sys2Proof/Decode.lean ====
section
/-! DEFINITION. The decoder, total on any list of cells and rejecting by name (30_encoding.md, 40_engine.md R113), and
after it the encoder (R95) and the host's view of a table word. -/

namespace Sys2Proof

/-- The defined opcodes (30_encoding.md R84). -/
inductive Opcode where
  | add | mul | input | output | jumpIfTrue | jumpIfFalse | lessThan | equals | halt
deriving DecidableEq, Repr

/-- Why a list of cells, read from `ip` on, is no instruction. One constructor for each of the checks 1 to 5 of
60_exceptions.md R208 (1 and 4 share one: cell `i` of the instruction is missing, the word being cell 0). -/
inductive Reject where
  /-- Cell `ip + i` does not exist (40_engine.md R112 for `i = 0`, 30_encoding.md R89 for an operand cell). -/
  | missingCell (i : Nat)
  /-- A negative word (R83) or an undefined OP (R92), with the raw word. -/
  | unknownOpcode (w : Int)
  /-- A mode digit 2 to 9 (R87) or a nonzero digit above the modes (R88), with the raw word. -/
  | illegalMode (w : Int)
  /-- The destination is in Immediate mode (R91). -/
  | invalidWriteTarget
deriving DecidableEq, Repr

/-- `digit(w, k)`, the decimal digit of `w` at place `10^k` (00_scope.md R10). -/
def digit (n k : Nat) : Nat := n / 10 ^ k % 10

/-- The opcode map read from `w mod 100` (30_encoding.md R84, R92). PRESUMED, unsafe: the numbers 3 to 8 are the spec's
own decision, from general knowledge (D8; log 9). -/
def opcodeOf (op : Nat) : Option Opcode :=
  match op with
  | 1 => some .add
  | 2 => some .mul
  | 3 => some .input
  | 4 => some .output
  | 5 => some .jumpIfTrue
  | 6 => some .jumpIfFalse
  | 7 => some .lessThan
  | 8 => some .equals
  | 99 => some .halt
  | _ => none

/-- The number OP of an opcode (R84, column OP). -/
def Opcode.number : Opcode → Nat
  | .add => 1
  | .mul => 2
  | .input => 3
  | .output => 4
  | .jumpIfTrue => 5
  | .jumpIfFalse => 6
  | .lessThan => 7
  | .equals => 8
  | .halt => 99

/-- The number of operand cells (R84, column arity). -/
def Opcode.arity : Opcode → Nat
  | .add => 3
  | .mul => 3
  | .input => 1
  | .output => 1
  | .jumpIfTrue => 2
  | .jumpIfFalse => 2
  | .lessThan => 3
  | .equals => 3
  | .halt => 0

/-- Which parameter is the destination, if one is (R84, column destination parameter). -/
def Opcode.destination : Opcode → Option Nat
  | .add => some 3
  | .mul => some 3
  | .input => some 1
  | .output => none
  | .jumpIfTrue => none
  | .jumpIfFalse => none
  | .lessThan => some 3
  | .equals => some 3
  | .halt => none

/-- Check 3 of R208: every parameter's mode digit is 0 or 1 (R87), and every digit above the modes is 0 (R88). -/
def modesLegal (op : Opcode) (n : Nat) : Bool :=
  (List.range op.arity).all (fun i => decide (digit n (i + 2) ≤ 1)) && decide (n / 10 ^ (2 + op.arity) = 0)

/-- Check 5 of R208: the opcode has a destination parameter and its mode digit is 1 (R91). -/
def destinationImmediate (op : Opcode) (n : Nat) : Bool :=
  match op.destination with
  | some d => decide (digit n (d + 1) = 1)
  | none => false

/-- A source parameter from its mode digit and its operand cell (R90). -/
def Param.ofMode (m : Nat) (c : Int) : Param := if m = 0 then .position c else .immediate c

/-- The instruction of an opcode, from the digits of its word `n` and its operand cells `cs` (R90, R113). -/
def buildInstr (op : Opcode) (n : Nat) (cs : List Int) : Instr :=
  let cell := fun k => cs.getD k 0
  let source := fun k => Param.ofMode (digit n (k + 2)) (cell k)
  match op with
  | .add => .add (source 0) (source 1) (cell 2)
  | .mul => .mul (source 0) (source 1) (cell 2)
  | .input => .input (cell 0)
  | .output => .output (source 0)
  | .jumpIfTrue => .jumpIfTrue (source 0) (source 1)
  | .jumpIfFalse => .jumpIfFalse (source 0) (source 1)
  | .lessThan => .lessThan (source 0) (source 1) (cell 2)
  | .equals => .equals (source 0) (source 1) (cell 2)
  | .halt => .halt

/-- Decode (40_engine.md R113), in the order of 60_exceptions.md R208, checks 1 to 5. The argument is the memory from
`ip` on: its first cell is the instruction word. The first operand cell that is missing is the one after the last cell
there is, since the cells are read `ip+1` first. -/
def decode (memory : List Int) : Except Reject Instr :=
  match memory with
  | [] => .error (.missingCell 0)
  | w :: operands =>
    if w < 0 then .error (.unknownOpcode w)
    else
      match opcodeOf (w.toNat % 100) with
      | none => .error (.unknownOpcode w)
      | some op =>
        if !modesLegal op w.toNat then .error (.illegalMode w)
        else if operands.length < op.arity then .error (.missingCell (operands.length + 1))
        else if destinationImmediate op w.toNat then .error .invalidWriteTarget
        else .ok (buildInstr op w.toNat operands)

/-- The opcode of an instruction. -/
def Instr.opcode : Instr → Opcode
  | .add _ _ _ => .add
  | .mul _ _ _ => .mul
  | .input _ => .input
  | .output _ => .output
  | .jumpIfTrue _ _ => .jumpIfTrue
  | .jumpIfFalse _ _ => .jumpIfFalse
  | .lessThan _ _ _ => .lessThan
  | .equals _ _ _ => .equals
  | .halt => .halt

/-- The width of an instruction in cells, `1 + arity(OP)` (R85). -/
def Instr.width (i : Instr) : Nat := 1 + i.opcode.arity

/-- The mode digit of a source parameter (R86). -/
def Param.mode : Param → Nat
  | .position _ => 0
  | .immediate _ => 1

/-- The mode digits of parameters 1 and 2; a destination's and a missing parameter's digit is 0 (R95). -/
def Instr.modes : Instr → Nat × Nat
  | .add s1 s2 _ => (s1.mode, s2.mode)
  | .mul s1 s2 _ => (s1.mode, s2.mode)
  | .input _ => (0, 0)
  | .output src => (src.mode, 0)
  | .jumpIfTrue cmp target => (cmp.mode, target.mode)
  | .jumpIfFalse cmp target => (cmp.mode, target.mode)
  | .lessThan s1 s2 _ => (s1.mode, s2.mode)
  | .equals s1 s2 _ => (s1.mode, s2.mode)
  | .halt => (0, 0)

/-- The instruction word `OP + 100*m1 + 1000*m2` (R95). -/
def encodeWord (i : Instr) : Nat := i.opcode.number + 100 * i.modes.1 + 1000 * i.modes.2

/-- The encoding of an instruction: its word and then its operand cells, in parameter order (R95). -/
def encode (i : Instr) : List Int := (encodeWord i : Int) :: i.cells

/-- The signed value of the low `bits` bits of `n`, two's complement (R5). -/
def signedOfBits (bits n : Nat) : Int :=
  if n % 2 ^ bits < 2 ^ (bits - 1) then ((n % 2 ^ bits : Nat) : Int) else ((n % 2 ^ bits : Nat) : Int) - (2 ^ bits : Nat)

/-- The four cells of the longest instruction, cut out of a number whose bit 0 is the least significant bit of the first
cell; every bit from `nbits` on is 0. DESIGN CHOICE, safe: the spec has no bits in an encoding, and this layout serves
only the host's questions about a table row (log 11). -/
def tableCells (bits nbits w : Nat) : List Int :=
  [signedOfBits bits (w % 2 ^ nbits), signedOfBits bits (w % 2 ^ nbits / 2 ^ bits),
    signedOfBits bits (w % 2 ^ nbits / 2 ^ (2 * bits)), signedOfBits bits (w % 2 ^ nbits / 2 ^ (3 * bits))]

/-- What the decoder reads from the table word `w` of `nbits` bits, in cells of the default width; `none` where it
refuses. -/
def decodeTableWord (nbits w : Nat) : Option Instr :=
  match decode (tableCells Config.default.wordBits nbits w) with
  | .ok i => some i
  | .error _ => none

end Sys2Proof
end

