-- ==== Sys2Proof/Machine/State.lean ====
section
/-! DEFINITION. The state of the machine as plain data, its reset, and the reasons the model can stop. -/

namespace Sys2Proof.Machine

/-- `RUN_STATE` (10_state.md R24). -/
inductive RunState where
  /-- 0: power-on state before any run has started. -/
  | idle
  /-- 1: a run is in progress. -/
  | running
  /-- 2: the run executed Halt. -/
  | halted
  /-- 3: the run raised a fault. -/
  | faulted
deriving DecidableEq, Repr

/-- `FAULT_CAUSE` (10_state.md R28, 60_exceptions.md R201): seven legal values, and no other is ever written. -/
inductive FaultCause where
  /-- 0: no fault. -/
  | none
  /-- 1, raised by decode (R202). -/
  | unknownOpcode
  /-- 2, raised by fetch, decode, resolve, JT and JF (R204). -/
  | outOfBoundsAddress
  /-- 3, raised by decode (R205). -/
  | invalidWriteTarget
  /-- 4, raised by IN (R206). -/
  | inputExhausted
  /-- 5, raised by decode (R203). -/
  | illegalMode
  /-- 6, raised by ADD and MUL (R207). -/
  | arithmeticOverflow
deriving DecidableEq, Repr

/-- The five fault registers (10_state.md R28 to R32), written together by a fault entry (60_exceptions.md R209) and
cleared together by a run start (70_reset_and_hazards.md R230). -/
structure FaultRecord where
  /-- `FAULT_CAUSE` (R28). -/
  cause : FaultCause
  /-- `FAULT_IP` (R29). -/
  ip : Nat
  /-- `FAULT_WORD` (R30). -/
  word : Int
  /-- `FAULT_ADDR` (R31): any word value or MEM_LEN, so an integer. -/
  addr : Int
  /-- `FAULT_TICK` (R32). -/
  tick : Nat
deriving DecidableEq, Repr

/-- The fault registers with every field 0 (R230, R232). -/
def FaultRecord.clear : FaultRecord := { cause := .none, ip := 0, word := 0, addr := 0, tick := 0 }

/-- The outcome a trace record names (60_exceptions.md R217). -/
inductive TraceOutcome where
  | completed
  | halted
  | faulted
deriving DecidableEq, Repr

/-- One record of the trace port (R217): TICK and IP before the step, the fetched word or 0, the outcome. -/
structure TraceRecord where
  tick : Nat
  ip : Nat
  word : Int
  outcome : TraceOutcome
deriving DecidableEq, Repr

/-- The state of the machine. `config` is the model's own field: the parameters of the machine (log 1). -/
structure State where
  /-- The parameters (00_scope.md R5, R6, R8, R9); no step writes them. -/
  config : Config
  /-- `MEM` (10_state.md R22): cell `a` is entry `a` of the list, and MEM_LEN is its length (00_scope.md R7; log 2). -/
  mem : List Int
  /-- `IP` (R23). -/
  ip : Nat
  /-- `RUN_STATE` (R24). -/
  runState : RunState
  /-- `TICK` (R25). -/
  tick : Nat
  /-- `INQ` (R26): the input values not yet consumed, the next one first. -/
  inq : List Int
  /-- `OUTQ` (R27): the values output so far, the first one first. -/
  outq : List Int
  /-- The fault registers (R28 to R32). -/
  fault : FaultRecord
  /-- `step_enable`, the level the host drives on the control port (R38; log 6). -/
  stepEnable : Bool
  /-- The records emitted on the trace port so far, the first one first (60_exceptions.md R217; log 7). -/
  trace : List TraceRecord
deriving DecidableEq, Repr

/-- The form memory has: every cell holds a word (10_state.md R22, 00_scope.md R5). The list has one entry for each
cell and no other, so equal memories are equal lists. -/
abbrev Memory.wf (bits : Nat) (m : List Int) : Prop := ∀ v ∈ m, FitsWord bits v

/-- Power-on (70_reset_and_hazards.md R232), with the parameters of the machine. DESIGN CHOICE: no cell of memory exists
before the host loads an image (R232 leaves MEM unspecified; log 3), `step_enable` is not asserted (log 6), and no trace
record has been emitted (log 7). -/
def State.powerOn (c : Config) : State :=
  { config := c, mem := [], ip := 0, runState := .idle, tick := 0, inq := [], outq := [], fault := .clear,
    stepEnable := false, trace := [] }

/-- The machine right after reset, the run start of 70_reset_and_hazards.md R230, with the spec's default parameters.
DESIGN CHOICE: the host has loaded the empty image (log 3), supplied no input (log 4) and asserted `step_enable`
(log 6). -/
def State.reset : State :=
  { config := Config.default, mem := [], ip := 0, runState := .running, tick := 0, inq := [], outq := [],
    fault := .clear, stepEnable := true, trace := [] }

/-- The reasons the model, not the machine, stops with a fault. A fault of the SPEC is a next state with the fault
record written (60_exceptions.md R209; log 8), so no instruction and no step ever answers one of these. -/
inductive Fault where
  /-- Raised by `hostMove` alone, for a host that loads MEM while a run is Running (93_implementation_defined.md I11,
  70_reset_and_hazards.md R240): a race the spec gives no outcome for. Safe: nothing is claimed of what follows
  (log 10). -/
  | hostRace
deriving DecidableEq, Repr

/-- The reasons the model has no meaning to give. -/
inductive Refusal where
  /-- Raised by an arm of `exec` whose instruction has no meaning yet; no arm answers it now. Safe. -/
  | notModelled (mnemonic : String)
  /-- Raised by `hostMove` alone, for an image or an input sequence with a value that does not fit a word
  (93_implementation_defined.md I12: "refuse at the host boundary"). Safe (log 10). -/
  | valueNotAWord
deriving DecidableEq, Repr

end Sys2Proof.Machine
end

