-- ==== Sys2Proof/Machine/Ops.lean ====
section
/-! DEFINITION. The named operations of the engine over its state: the memory port, the channel primitives, raising a
fault, the commit, and the one fault entry every fault goes through. There is no return from a fault (R210). -/

namespace Sys2Proof.Machine

/-- `raise <Cause>(info)` (00_scope.md R11): what ends a step with a fault, with the address an OutOfBoundsAddress
carries (60_exceptions.md R201). -/
inductive Raise where
  | unknownOpcode
  | outOfBoundsAddress (addr : Int)
  | invalidWriteTarget
  | inputExhausted
  | illegalMode
  | arithmeticOverflow
deriving DecidableEq, Repr

/-- The cause a raise records (R201). -/
def Raise.cause : Raise → FaultCause
  | .unknownOpcode => .unknownOpcode
  | .outOfBoundsAddress _ => .outOfBoundsAddress
  | .invalidWriteTarget => .invalidWriteTarget
  | .inputExhausted => .inputExhausted
  | .illegalMode => .illegalMode
  | .arithmeticOverflow => .arithmeticOverflow

/-- What goes to `FAULT_ADDR`: the failing address for OutOfBoundsAddress and 0 for every other cause (R31, R209). -/
def Raise.addr : Raise → Int
  | .outOfBoundsAddress a => a
  | .unknownOpcode => 0
  | .invalidWriteTarget => 0
  | .inputExhausted => 0
  | .illegalMode => 0
  | .arithmeticOverflow => 0

/-- `MEM_LEN`, the number of cells (00_scope.md R7). -/
def State.memLen (s : State) : Nat := s.mem.length

/-- An address names a cell: `0 <= a < MEM_LEN` (20_memory.md R50). -/
abbrev InBounds (s : State) (a : Int) : Prop := 0 ≤ a ∧ a < (s.memLen : Int)

/-- The one bounds check: the cell an address names, or OutOfBoundsAddress with that address (20_memory.md R51 to
R54). -/
def checkAddress (a : Int) (s : State) : Except Raise Nat :=
  if a < 0 ∨ a ≥ (s.memLen : Int) then .error (.outOfBoundsAddress a) else .ok a.toNat

/-- `MemRead(a, 1)` (R51). A cell and a value have the same width: no extension. -/
def memRead (a : Int) (s : State) : Except Raise Int :=
  match checkAddress a s with
  | .ok k => .ok (s.mem.getD k 0)
  | .error r => .error r

/-- The write of `MemWrite(a, 1, v)` (R52) to a cell whose address has been checked: the whole cell is replaced and no
other changes. -/
def writeCell (k : Nat) (v : Int) (m : List Int) : List Int := m.set k v

/-- `in_avail` (10_state.md R36): true exactly when `INQ` is not empty. -/
def State.inAvail (s : State) : Bool := !s.inq.isEmpty

/-- `in_data` (R36): the first element of `INQ`, meaningful only when `in_avail` is true. -/
def State.inData (s : State) : Option Int := s.inq.head?

/-- `InPop()` (42_io.md R152): removes the first element of `INQ`. -/
def inPop (q : List Int) : List Int := q.tail

/-- `OutPush(v)` (42_io.md R153): appends `v` to the end of `OUTQ`. -/
def outPush (v : Int) (q : List Int) : List Int := q ++ [v]

/-- The effects an execute stage returns (40_engine.md R118): at most one write, one pop and one output value. -/
structure Effects where
  /-- The checked cell and the word to write to it. -/
  write : Option (Nat × Int) := none
  /-- Whether the first input value is consumed. -/
  pop : Bool := false
  /-- The value to append to `OUTQ`. -/
  push : Option Int := none
deriving DecidableEq, Repr

/-- The step outcome an execute stage returns (R117). -/
inductive StepOutcome where
  /-- The next ip is `IP + k`, with `k` the instruction's width. -/
  | advance (k : Nat)
  /-- The next ip is the checked target `t`. -/
  | jump (t : Nat)
  /-- `IP` is unchanged and the run ends Halted. -/
  | halt
deriving DecidableEq, Repr

/-- `MEM` after the commit's write, if the step has one (R118). -/
def Effects.memAfter (e : Effects) (m : List Int) : List Int :=
  match e.write with
  | some (k, v) => writeCell k v m
  | none => m

/-- `INQ` after the commit's pop, if the step has one (R118). -/
def Effects.inqAfter (e : Effects) (q : List Int) : List Int := if e.pop then inPop q else q

/-- `OUTQ` after the commit's output, if the step has one (R118). -/
def Effects.outqAfter (e : Effects) (q : List Int) : List Int :=
  match e.push with
  | some v => outPush v q
  | none => q

/-- The next ip of a step outcome (R117). -/
def StepOutcome.nextIp (o : StepOutcome) (ip : Nat) : Nat :=
  match o with
  | .advance k => ip + k
  | .jump t => t
  | .halt => ip

/-- `RUN_STATE` after a step outcome (R117, R118). -/
def StepOutcome.nextRunState (o : StepOutcome) (r : RunState) : RunState :=
  match o with
  | .advance _ => r
  | .jump _ => r
  | .halt => .halted

/-- `(TICK + 1) mod 2^TICK_BITS` (R118, 10_state.md R25). -/
def nextTick (c : Config) (tick : Nat) : Nat := (tick + 1) % 2 ^ c.tickBits

/-- `Commit(effects, outcome)` (R118): all effects together, with `IP`, `RUN_STATE` and `TICK`. -/
def commit (e : Effects) (o : StepOutcome) (s : State) : State :=
  { s with
    mem := e.memAfter s.mem
    inq := e.inqAfter s.inq
    outq := e.outqAfter s.outq
    ip := o.nextIp s.ip
    runState := o.nextRunState s.runState
    tick := nextTick s.config s.tick }

/-- The word the fetch of this step reads, or 0 if the fetch fails (60_exceptions.md R209, R217). DEDUCED, safe: it is
read as `MEM[IP]`, which R30 says `FAULT_WORD` is (log 12). -/
def State.fetchedWord (s : State) : Int := s.mem.getD s.ip 0

/-- `FaultEntry` (60_exceptions.md R209): the five fault registers and `RUN_STATE` are written and nothing else changes.
Every fault of the machine is taken by this one operation. -/
def faultEntry (r : Raise) (s : State) : State :=
  { s with
    fault := { cause := r.cause, ip := s.ip, word := s.fetchedWord, addr := r.addr, tick := s.tick }
    runState := .faulted }

/-- The end of a step (40_engine.md R111): a step that raised nothing commits (R118); a step that raised a fault commits
nothing and takes the fault entry (R119). Both are next states. -/
def finish (s : State) : Except Raise (Effects × StepOutcome) → Host.Outcome State Fault Refusal
  | .ok (e, o) => .next (commit e o s)
  | .error r => .next (faultEntry r s)

end Sys2Proof.Machine
end

