-- ==== Sys2Proof/Machine/Operands.lean ====
section
/-! DEFINITION. The parameter resolver (40_engine.md R114 to R116) and the jump target check (43_jumps.md R162). -/

namespace Sys2Proof.Machine

/-- `value_of` (40_engine.md R114): a source parameter's word. -/
def valueOf (p : Param) (s : State) : Except Raise Int :=
  match p with
  | .position a => memRead a s
  | .immediate v => .ok v

/-- `addr_of` (R115): the cell a destination names. -/
def addrOf (dest : Int) (s : State) : Except Raise Nat := checkAddress dest s

/-- The target check of a jump that is taken (43_jumps.md R162): any cell is a legal target. -/
def jumpTarget (t : Int) (s : State) : Except Raise Nat := checkAddress t s

end Sys2Proof.Machine
end

