-- ==== Sys2Proof/Machine/Flags.lean ====
section
/-! DEFINITION. The conditions of the ALU. The hardware has no flags, condition codes or predicates (10_state.md R33):
a comparison is a word and a jump tests a word. -/

namespace Sys2Proof.Machine

/-- `alu_lt` (40_engine.md R123): the signed comparison, as the word 1 or 0. -/
def aluLt (x y : Int) : Int := if x < y then 1 else 0

/-- `alu_eq` (R124): equality, as the word 1 or 0. -/
def aluEq (x y : Int) : Int := if x = y then 1 else 0

/-- `alu_nz` (R124): the test used by the jumps. -/
def aluNz (x : Int) : Bool := decide (x ≠ 0)

end Sys2Proof.Machine
end

