-- ==== Sys2Proof/Machine/Arithmetic.lean ====
section
/-! DEFINITION. The ALU's exact arithmetic and its result rule (40_engine.md R120 to R122), the shape the four storing
instructions share, and ADD and MUL (41_arithmetic.md). -/

namespace Sys2Proof.Machine

/-- The result of `fit` under `wrap`: two's-complement truncation, `((r - WMIN) mod 2^WORD_BITS) + WMIN` (R120). -/
def wrapToWord (bits : Nat) (r : Int) : Int := (r - wmin bits) % ((2 ^ bits : Nat) : Int) + wmin bits

/-- `fit(r)` (R120): the exact result if it is a word; otherwise what `OVERFLOW_POLICY` says. -/
def fit (c : Config) (r : Int) : Except Raise Int :=
  if FitsWord c.wordBits r then .ok r
  else
    match c.overflowPolicy with
    | .fault => .error .arithmeticOverflow
    | .wrap => .ok (wrapToWord c.wordBits r)

/-- `alu_add(x, y) = fit(x + y)` (R121). -/
def aluAdd (c : Config) (x y : Int) : Except Raise Int := fit c (x + y)

/-- `alu_mul(x, y) = fit(x * y)` (R122). -/
def aluMul (c : Config) (x y : Int) : Except Raise Int := fit c (x * y)

/-- Resolve and execute of ADD, MUL, LT and EQ: both sources in order, then the destination (40_engine.md R114, R115),
then the ALU; the effect is one write and the outcome an advance of 4 (R117, R118). -/
def storePlan (alu : Int → Int → Except Raise Int) (s1 s2 : Param) (dest : Int) (s : State) :
    Except Raise (Effects × StepOutcome) := do
  let v1 ← valueOf s1 s
  let v2 ← valueOf s2 s
  let a ← addrOf dest s
  let r ← alu v1 v2
  return ({ write := some (a, r) }, .advance 4)

/-- ADD (41_arithmetic.md R140). -/
def execAdd (s1 s2 : Param) (dest : Int) (s : State) : Host.Outcome State Fault Refusal :=
  finish s (storePlan (aluAdd s.config) s1 s2 dest s)

/-- MUL (41_arithmetic.md R141). -/
def execMul (s1 s2 : Param) (dest : Int) (s : State) : Host.Outcome State Fault Refusal :=
  finish s (storePlan (aluMul s.config) s1 s2 dest s)

end Sys2Proof.Machine
end

