-- ==== Sys2Proof/Machine/Compare.lean ====
section
/-! DEFINITION. LT and EQ (44_compare.md R170, R171): the comparison's word is stored as ADD stores its sum. -/

namespace Sys2Proof.Machine

/-- LT (R170). It never overflows. -/
def execLessThan (s1 s2 : Param) (dest : Int) (s : State) : Host.Outcome State Fault Refusal :=
  finish s (storePlan (fun x y => .ok (aluLt x y)) s1 s2 dest s)

/-- EQ (R171). It never overflows. -/
def execEquals (s1 s2 : Param) (dest : Int) (s : State) : Host.Outcome State Fault Refusal :=
  finish s (storePlan (fun x y => .ok (aluEq x y)) s1 s2 dest s)

end Sys2Proof.Machine
end

