-- ==== Sys2Proof/Machine/Halt.lean ====
section
/-! DEFINITION. HALT (45_halt.md R180). -/

namespace Sys2Proof.Machine

/-- HALT (R180): no effects, `RUN_STATE` becomes Halted, `IP` stays, `TICK` counts it. -/
def execHalt (s : State) : Host.Outcome State Fault Refusal := finish s (.ok ({}, .halt))

end Sys2Proof.Machine
end

