-- ==== Sys2Proof/Machine/InputOutput.lean ====
section
/-! DEFINITION. IN and OUT (42_io.md R150, R151). -/

namespace Sys2Proof.Machine

/-- Resolve and execute of IN (R150): the destination is checked before the channel, and the value stored is the one
removed (R152). -/
def inputPlan (dest : Int) (s : State) : Except Raise (Effects × StepOutcome) := do
  let a ← addrOf dest s
  match s.inData with
  | none => throw .inputExhausted
  | some v => return ({ write := some (a, v), pop := true }, .advance 2)

/-- Resolve and execute of OUT (R151): the source's value is appended to `OUTQ` (R153). -/
def outputPlan (src : Param) (s : State) : Except Raise (Effects × StepOutcome) := do
  let v ← valueOf src s
  return ({ push := some v }, .advance 2)

/-- IN (R150). -/
def execInput (dest : Int) (s : State) : Host.Outcome State Fault Refusal := finish s (inputPlan dest s)

/-- OUT (R151). -/
def execOutput (src : Param) (s : State) : Host.Outcome State Fault Refusal := finish s (outputPlan src s)

end Sys2Proof.Machine
end

