-- ==== Sys2Proof/Machine/Jumps.lean ====
section
/-! DEFINITION. JT and JF (43_jumps.md R160 to R162). -/

namespace Sys2Proof.Machine

/-- Resolve and execute of a conditional jump: both sources are resolved, taken or not (40_engine.md R116); a jump that
is taken checks its target (43_jumps.md R162), and one that is not taken advances by 3. -/
def jumpPlan (taken : Int → Bool) (cmp target : Param) (s : State) : Except Raise (Effects × StepOutcome) := do
  let v1 ← valueOf cmp s
  let v2 ← valueOf target s
  if taken v1 then
    let t ← jumpTarget v2 s
    return ({}, .jump t)
  else
    return ({}, .advance 3)

/-- JT (R160): jumps when `cmp` is not zero. -/
def execJumpIfTrue (cmp target : Param) (s : State) : Host.Outcome State Fault Refusal :=
  finish s (jumpPlan aluNz cmp target s)

/-- JF (R161): jumps when `cmp` is zero. -/
def execJumpIfFalse (cmp target : Param) (s : State) : Host.Outcome State Fault Refusal :=
  finish s (jumpPlan (fun v => !aluNz v) cmp target s)

end Sys2Proof.Machine
end

