-- ==== Sys2Proof/Machine/Dispatch.lean ====
section
/-! DEFINITION. One arm per instruction, each a direct call of its meaning: the resolve, execute and commit stages of a
step (40_engine.md R111) of an instruction that has been fetched and decoded. -/

namespace Sys2Proof.Machine

def exec (i : Instr) (s : State) : Host.Outcome State Fault Refusal :=
  match i with
  | .add s1 s2 dest => Sys2Proof.Machine.execAdd s1 s2 dest s
  | .mul s1 s2 dest => Sys2Proof.Machine.execMul s1 s2 dest s
  | .input dest => Sys2Proof.Machine.execInput dest s
  | .output src => Sys2Proof.Machine.execOutput src s
  | .jumpIfTrue cmp target => Sys2Proof.Machine.execJumpIfTrue cmp target s
  | .jumpIfFalse cmp target => Sys2Proof.Machine.execJumpIfFalse cmp target s
  | .lessThan s1 s2 dest => Sys2Proof.Machine.execLessThan s1 s2 dest s
  | .equals s1 s2 dest => Sys2Proof.Machine.execEquals s1 s2 dest s
  | .halt => Sys2Proof.Machine.execHalt s

end Sys2Proof.Machine
end

