-- ==== Sys2Proof/Machine/Fetch.lean ====
section
/-! DEFINITION. Fetch and decode at the instruction pointer (40_engine.md R112, R113), when a step is enabled (R110),
and the placing of an instruction where the next step fetches it. -/

namespace Sys2Proof.Machine

/-- A step is enabled exactly when `RUN_STATE = Running` and the host asserts `step_enable` (40_engine.md R110). -/
def State.stepEnabled (s : State) : Bool := decide (s.runState = .running) && s.stepEnable

/-- The fault a rejected decode at `ip` raises: a missing cell `i` is OutOfBoundsAddress(ip + i) (R112, R113). -/
def Raise.ofReject (ip : Nat) : Reject → Raise
  | .missingCell i => .outOfBoundsAddress (((ip + i : Nat)) : Int)
  | .unknownOpcode _ => .unknownOpcode
  | .illegalMode _ => .illegalMode
  | .invalidWriteTarget => .invalidWriteTarget

/-- Fetch and decode at `IP` (R112, R113). Fetch reads the same memory as data (20_memory.md R50, R64). -/
def fetchDecode (s : State) : Except Raise Instr :=
  match decode (s.mem.drop s.ip) with
  | .ok i => .ok i
  | .error r => .error (.ofReject s.ip r)

/-- A memory with the cells `cs` from address `k` on: cells after them stay, and missing cells before them are 0. -/
def placeCells (k : Nat) (cs m : List Int) : List Int :=
  (m ++ List.replicate (k - m.length) 0).take k ++ cs ++ m.drop (k + cs.length)

/-- The table word `w` of `nbits` bits placed at `IP` in cells of the machine's width, with a run in progress and stepping
enabled: it stands for the host's load and start (70_reset_and_hazards.md R234; log 11). -/
def placeFetchWord (nbits w : Nat) (s : State) : State :=
  { s with
    mem := placeCells s.ip (tableCells s.config.wordBits nbits w) s.mem
    runState := .running
    stepEnable := true }

end Sys2Proof.Machine
end

