-- ==== Sys2Proof/Machine/Trace.lean ====
section
/-! DEFINITION. The optional trace port (60_exceptions.md R217): one record at the end of every step. -/

namespace Sys2Proof.Machine

/-- The outcome a trace record names, from the state the step left (R217). -/
def traceOutcome (after : State) : TraceOutcome :=
  match after.runState with
  | .halted => .halted
  | .faulted => .faulted
  | .running => .completed
  | .idle => .completed

/-- The record of the step from `before` to `after` (R217). -/
def traceRecord (before after : State) : TraceRecord :=
  { tick := before.tick, ip := before.ip, word := before.fetchedWord, outcome := traceOutcome after }

/-- The records emitted after the step from `before` to `after`: one more if the block has a trace port (R9, R217). -/
def traceAfter (before after : State) : List TraceRecord :=
  match before.config.tracePort with
  | .present => after.trace ++ [traceRecord before after]
  | .absent => after.trace

/-- The state with the step's record emitted (R217): nothing else changes. -/
def emitTrace (before after : State) : State := { after with trace := traceAfter before after }

/-- A step's answer with its trace record emitted (R217). -/
def traced (before : State) : Host.Outcome State Fault Refusal → Host.Outcome State Fault Refusal
  | .next after => .next (emitTrace before after)
  | .fault r => .fault r
  | .refused r => .refused r

end Sys2Proof.Machine
end

