-- ==== Sys2Proof/Machine/Engine.lean ====
section
/-! DEFINITION. The fetch-decode-execute loop's one step (40_engine.md R110, R111). -/

namespace Sys2Proof.Machine

/-- One step (R111): fetch and decode, then the decoded instruction, or the fault entry of the check that rejected it.
DESIGN CHOICE, safe: where no step is enabled (R110) nothing executes and the state stays as it is, so a step asked for
there answers the same state (log 5). -/
def engineStep (s : State) : Host.Outcome State Fault Refusal :=
  if s.stepEnabled then
    match fetchDecode s with
    | .ok i => traced s (exec i s)
    | .error r => traced s (.next (faultEntry r s))
  else .next s

end Sys2Proof.Machine
end

