-- ==== Sys2Proof/Machine/Step.lean ====
section
/-! DEFINITION. The step of the machine, and the placing of an instruction where the next step fetches it. -/

namespace Sys2Proof.Machine

/-- One step of the machine (40_engine.md R111). -/
def step (s : State) : Host.Outcome State Fault Refusal := engineStep s

/-- `s` with the table word `w` of `nbits` bits stored at `IP`, a run in progress and stepping enabled, so that the next
step fetches and runs it (log 11). -/
def State.withFetchWord (s : State) (nbits w : Nat) : State := placeFetchWord nbits w s

end Sys2Proof.Machine
end

