-- ==== Sys2Proof/Machine/HostPort.lean ====
section
/-! DEFINITION. The host's side: what the host can do between steps and what it can read (70_reset_and_hazards.md R230
to R236, R240; 10_state.md R38). -/

namespace Sys2Proof.Machine

/-- The moves of the host that change something (R235). -/
inductive HostMove where
  /-- Load a memory image (R234). -/
  | load (image : List Int)
  /-- Assert `start` with the run's input sequence (R230). -/
  | start (inputs : List Int)
  /-- Drive `step_enable` (R128). -/
  | setStepEnable (level : Bool)
deriving DecidableEq, Repr

/-- `RunStart(input_sequence)` (R230): `MEM` is not changed (R231). -/
def runStart (inputs : List Int) (s : State) : State :=
  { s with ip := 0, runState := .running, tick := 0, fault := .clear, inq := inputs, outq := [] }

/-- A host move between two steps (R235). A load while Running is a race (I11, R240), and a value that does not fit a word
is refused at the boundary (I12, R234); a start is accepted in every `RUN_STATE` (R230; log 10). -/
def hostMove (m : HostMove) (s : State) : Host.Outcome State Fault Refusal :=
  match m with
  | .load image =>
    if s.runState = .running then .fault .hostRace
    else if Memory.wf s.config.wordBits image then .next { s with mem := image }
    else .refused .valueNotAWord
  | .start inputs =>
    if Memory.wf s.config.wordBits inputs then .next (runStart inputs s) else .refused .valueNotAWord
  | .setStepEnable level => .next { s with stepEnable := level }

/-- The number of a `RUN_STATE` value (10_state.md R24). -/
def RunState.code : RunState → Nat
  | .idle => 0
  | .running => 1
  | .halted => 2
  | .faulted => 3

/-- The number of a cause (60_exceptions.md R201). -/
def FaultCause.code : FaultCause → Nat
  | .none => 0
  | .unknownOpcode => 1
  | .outOfBoundsAddress => 2
  | .invalidWriteTarget => 3
  | .inputExhausted => 4
  | .illegalMode => 5
  | .arithmeticOverflow => 6

/-- The outputs of the control and status port (10_state.md R38), each as the number the host reads. -/
structure StatusPort where
  runState : Nat
  ip : Nat
  tick : Nat
  faultCause : Nat
  faultIp : Nat
  faultWord : Int
  faultAddr : Int
  faultTick : Nat
deriving DecidableEq, Repr

/-- What the host reads on the control and status port (R38). -/
def State.status (s : State) : StatusPort :=
  { runState := s.runState.code, ip := s.ip, tick := s.tick, faultCause := s.fault.cause.code, faultIp := s.fault.ip,
    faultWord := s.fault.word, faultAddr := s.fault.addr, faultTick := s.fault.tick }

/-- The observable result of a run that has ended (70_reset_and_hazards.md R236). -/
structure RunResult where
  runState : RunState
  mem : List Int
  outq : List Int
  inq : List Int
  ip : Nat
  tick : Nat
  fault : FaultRecord
deriving DecidableEq, Repr

/-- A run has ended when `RUN_STATE` is Halted or Faulted; otherwise it has no result (R236). -/
def State.result (s : State) : Option RunResult :=
  match s.runState with
  | .halted => some ⟨s.runState, s.mem, s.outq, s.inq, s.ip, s.tick, s.fault⟩
  | .faulted => some ⟨s.runState, s.mem, s.outq, s.inq, s.ip, s.tick, s.fault⟩
  | .running => none
  | .idle => none

end Sys2Proof.Machine
end

