-- ==== Sys2Proof/Safety.lean ====
section
/-! DEFINITION. The terms claims are stated in: what an operand denotes, said without the engine's own resolver, and the
invariants of a sound state. -/

namespace Sys2Proof

/-- The value a source parameter has in a memory, if it has one: an Immediate's own value, or the content of the cell a
Position names (40_engine.md R114). -/
def Param.valueIn (m : List Int) : Param → Option Int
  | .position a => if a < 0 then none else m[a.toNat]?
  | .immediate v => some v

/-- The source parameters of an instruction, in parameter order (30_encoding.md R84, 40_engine.md R114). -/
def Instr.sources : Instr → List Param
  | .add s1 s2 _ => [s1, s2]
  | .mul s1 s2 _ => [s1, s2]
  | .input _ => []
  | .output src => [src]
  | .jumpIfTrue cmp target => [cmp, target]
  | .jumpIfFalse cmp target => [cmp, target]
  | .lessThan s1 s2 _ => [s1, s2]
  | .equals s1 s2 _ => [s1, s2]
  | .halt => []

/-- The destination parameter of an instruction, if it has one (R84). -/
def Instr.dest : Instr → Option Int
  | .add _ _ dest => some dest
  | .mul _ _ dest => some dest
  | .input dest => some dest
  | .output _ => none
  | .jumpIfTrue _ _ => none
  | .jumpIfFalse _ _ => none
  | .lessThan _ _ dest => some dest
  | .equals _ _ dest => some dest
  | .halt => none

namespace Machine

/-- The parameter `p` has the value `v` in the state `s`. -/
abbrev Reads (s : State) (p : Param) (v : Int) : Prop := p.valueIn s.mem = some v

/-- The destination `dest` names the existing cell `k`. -/
abbrev NamesCell (s : State) (dest : Int) (k : Nat) : Prop := dest = (k : Int) ∧ k < s.mem.length

/-- The address `a` names no cell: it is negative or not below MEM_LEN (20_memory.md R53, R54). -/
abbrev OutOfRange (s : State) (a : Int) : Prop := a < 0 ∨ (s.mem.length : Int) ≤ a

/-- `i` is a jump to `target` that is taken in the state `s`: a JT whose `cmp` is not 0, or a JF whose `cmp` is 0
(43_jumps.md R160, R161). -/
abbrev JumpTaken (s : State) (i : Instr) (target : Param) : Prop :=
  ∃ (cmp : Param) (v : Int), Reads s cmp v ∧ (i = .jumpIfTrue cmp target ∧ v ≠ 0 ∨ i = .jumpIfFalse cmp target ∧ v = 0)

/-- Every value that a cell, the channel or the fault record holds fits a word (00_scope.md R5). -/
abbrev WordsFit (s : State) : Prop :=
  Memory.wf s.config.wordBits s.mem ∧ Memory.wf s.config.wordBits s.inq ∧ Memory.wf s.config.wordBits s.outq ∧
    FitsWord s.config.wordBits s.fault.word

/-- While Running, `IP <= MEM_LEN` (10_state.md R23). -/
abbrev IpInRange (s : State) : Prop := s.runState = .running → s.ip ≤ s.mem.length

/-- `TICK` and `FAULT_TICK` are unsigned counters of TICK_BITS bits (10_state.md R25, R32). -/
abbrev TickInRange (s : State) : Prop :=
  s.tick < 2 ^ s.config.tickBits ∧ s.fault.tick < 2 ^ s.config.tickBits

/-- The fault record is empty unless the run is Faulted; there it names a cause, the instruction at `IP` and the value
of `TICK`, and an address only for OutOfBoundsAddress (10_state.md R28 to R32). -/
abbrev FaultRecordSound (s : State) : Prop :=
  (s.runState ≠ .faulted → s.fault = .clear) ∧
    (s.runState = .faulted →
      s.fault.cause ≠ .none ∧ s.fault.ip = s.ip ∧ s.fault.tick = s.tick ∧
        (s.fault.cause ≠ .outOfBoundsAddress → s.fault.addr = 0))

/-- All the invariants together, for a machine whose parameters meet the spec's constraints. -/
abbrev Sound (s : State) : Prop :=
  s.config.Valid ∧ WordsFit s ∧ IpInRange s ∧ TickInRange s ∧ FaultRecordSound s

end Machine

end Sys2Proof
end

