-- ==== Sys2Proof/Certificates/Slice0/Obligations.lean ====
section
/-! DEFINITION. The statements for the provers. `Reads s p v` says that the source parameter `p` has the value `v`,
`NamesCell s d k` that the destination `d` names the existing cell `k`, `OutOfRange s a` that `a` names no cell, and
`JumpTaken s i p` that `i` is a jump to `p` that is taken (Sys2Proof/Safety.lean). -/

open Sys2Proof Sys2Proof.Machine

/-! ## Encoding and decoding -/

/-- Decoding an encoded instruction gives it back, whatever cells follow it (30_encoding.md R81, R84, R90, R95). It is said
of every instruction, the well-formed ones among them. The opcode numbers 3 to 8 are PRESUMED (log 9). -/
def Obligations.DecodeEncodeRoundTrip : Prop :=
  ∀ (i : Instr) (rest : List Int), decode (encode i ++ rest) = .ok i

/-- A decoded instruction was read from its own encoding and nothing else: every legal word has one spelling
(30_encoding.md R88, R93, R95; the opcode numbers 3 to 8 are PRESUMED, log 9). -/
def Obligations.DecodedCellsAreTheEncoding : Prop :=
  ∀ (m : List Int) (i : Instr), decode m = .ok i → ∃ rest, m = encode i ++ rest

/-- The words that decode, when all operand cells exist, are exactly the 28 words of the opcode table (30_encoding.md R84,
R88, R91, R93, R97; the opcode numbers 3 to 8 are PRESUMED, log 9). -/
def Obligations.LegalWordsExactly : Prop :=
  ∀ (w c1 c2 c3 : Int) (rest : List Int),
    (∃ i, decode (w :: c1 :: c2 :: c3 :: rest) = .ok i) ↔
      w ∈ ([1, 101, 1001, 1101, 2, 102, 1002, 1102, 3, 4, 104, 5, 105, 1005, 1105, 6, 106, 1006, 1106,
        7, 107, 1007, 1107, 8, 108, 1008, 1108, 99] : List Int)

/-- The words of the spec's encoding examples decode to the instructions they stand for (30_encoding.md R95 and its
table; the opcode numbers 3 to 8 are PRESUMED, log 9). -/
def Obligations.SampleWordsDecode : Prop :=
  decode [1, 7, 8, 9] = .ok (.add (.position 7) (.position 8) 9) ∧
    decode [1002, 4, 3, 4] = .ok (.mul (.position 4) (.immediate 3) 4) ∧
    decode [1101, 5, -6, 9] = .ok (.add (.immediate 5) (.immediate (-6)) 9) ∧
    decode [3, 9] = .ok (.input 9) ∧
    decode [104, -7] = .ok (.output (.immediate (-7))) ∧
    decode [1105, 1, 0] = .ok (.jumpIfTrue (.immediate 1) (.immediate 0)) ∧
    decode [1006, 20, 16] = .ok (.jumpIfFalse (.position 20) (.immediate 16)) ∧
    decode [7, 7, 8, 9] = .ok (.lessThan (.position 7) (.position 8) 9) ∧
    decode [1108, 5, 6, 9] = .ok (.equals (.immediate 5) (.immediate 6) 9) ∧ decode [99] = .ok .halt

/-- The decoder raises UnknownOpcode, with the raw word, exactly for a negative word (30_encoding.md R83) and for a word
whose OP is not defined (R92; that 3 to 8 are defined is PRESUMED, log 9). -/
def Obligations.UnknownOpcodeExactly : Prop :=
  ∀ (w : Int) (rest : List Int),
    decode (w :: rest) = .error (.unknownOpcode w) ↔
      (w < 0 ∨ w % 100 ∉ ([1, 2, 3, 4, 5, 6, 7, 8, 99] : List Int))

/-- For a word with a defined opcode the decoder raises IllegalMode, with the raw word, exactly when a parameter's mode
digit is 2 to 9 (30_encoding.md R87) or a digit above the modes is not 0 (R88), whatever cells follow. -/
def Obligations.IllegalModeExactly : Prop :=
  ∀ (w : Int) (rest : List Int) (op : Opcode), 0 ≤ w → w % 100 = op.number →
    (decode (w :: rest) = .error (.illegalMode w) ↔
      ((∃ k < op.arity, 2 ≤ w / 10 ^ (k + 2) % 10) ∨ w / 10 ^ (2 + op.arity) ≠ 0))

/-- With a legal word, a missing operand cell is rejected before an Immediate destination is looked at, and the cell named
is the first one missing (30_encoding.md R89, 60_exceptions.md R208 checks 4 and 5). No cell at all is a missing
word (40_engine.md R112). -/
def Obligations.MissingCellRejected : Prop :=
  decode [] = .error (.missingCell 0) ∧
    ∀ (w : Int) (rest : List Int) (op : Opcode), 0 ≤ w → w % 100 = op.number →
      (∀ k < op.arity, w / 10 ^ (k + 2) % 10 ≤ 1) → w / 10 ^ (2 + op.arity) = 0 → rest.length < op.arity →
      decode (w :: rest) = .error (.missingCell (rest.length + 1))

/-- With a legal word and all operand cells present, the decoder raises InvalidWriteTarget exactly when the opcode has a
destination and its mode digit is 1; otherwise it answers an instruction of that opcode (30_encoding.md R84, R91). -/
def Obligations.ImmediateDestinationRejected : Prop :=
  ∀ (w : Int) (rest : List Int) (op : Opcode), 0 ≤ w → w % 100 = op.number →
    (∀ k < op.arity, w / 10 ^ (k + 2) % 10 ≤ 1) → w / 10 ^ (2 + op.arity) = 0 → op.arity ≤ rest.length →
    if ∃ d, op.destination = some d ∧ w / 10 ^ (d + 1) % 10 = 1 then decode (w :: rest) = .error .invalidWriteTarget
    else ∃ i, decode (w :: rest) = .ok i ∧ i.opcode = op

/-- An instruction decoded from cells that hold words has words for operand cells (30_encoding.md R90, 00_scope.md R5). -/
def Obligations.DecodedInstrWellFormed : Prop :=
  ∀ (c : Config) (m : List Int) (i : Instr), Memory.wf c.wordBits m → decode m = .ok i → i.WellFormed c

/-! ## Memory and operands -/

/-- MemRead (20_memory.md R51): the cell's content as stored for an address in range, OutOfBoundsAddress with the address
for every other integer. -/
def Obligations.MemReadRule : Prop :=
  ∀ (s : State) (a : Int),
    if a < 0 ∨ a ≥ (s.mem.length : Int) then memRead a s = .error (.outOfBoundsAddress a)
    else ∃ v, s.mem[a.toNat]? = some v ∧ memRead a s = .ok v

/-- A write replaces the whole cell, changes no other cell and no other part of the state's memory length
(20_memory.md R52, R53). -/
def Obligations.WriteThenRead : Prop :=
  ∀ (s : State) (k : Nat) (v : Int), k < s.mem.length →
    memRead (k : Int) { s with mem := writeCell k v s.mem } = .ok v ∧
      (writeCell k v s.mem).length = s.mem.length ∧
      ∀ a : Int, a ≠ (k : Int) → memRead a { s with mem := writeCell k v s.mem } = memRead a s

/-- value_of and addr_of (40_engine.md R114, R115, 20_memory.md R54): an Immediate is its own value, a Position in range is
its cell's content, a destination in range is its cell, and any address out of range, negative or too large, raises
OutOfBoundsAddress with it. -/
def Obligations.OperandRule : Prop :=
  (∀ (s : State) (v : Int), valueOf (.immediate v) s = .ok v) ∧
    (∀ (s : State) (k : Nat) (v : Int), s.mem[k]? = some v →
      valueOf (.position (k : Int)) s = .ok v ∧ addrOf (k : Int) s = .ok k ∧ jumpTarget (k : Int) s = .ok k) ∧
    ∀ (s : State) (a : Int), a < 0 ∨ (s.mem.length : Int) ≤ a →
      valueOf (.position a) s = .error (.outOfBoundsAddress a) ∧ addrOf a s = .error (.outOfBoundsAddress a) ∧
        jumpTarget a s = .error (.outOfBoundsAddress a)

/-! ## The ALU -/

/-- fit (40_engine.md R120), and that its wrapped result is the two's-complement truncation: the one word that differs from
the exact result by a multiple of 2^WORD_BITS. -/
def Obligations.FitRule : Prop :=
  ∀ (c : Config) (r : Int), c.Valid →
    if wmin c.wordBits ≤ r ∧ r ≤ wmax c.wordBits then fit c r = .ok r
    else
      match c.overflowPolicy with
      | .fault => fit c r = .error .arithmeticOverflow
      | .wrap =>
        fit c r = .ok ((r - wmin c.wordBits) % 2 ^ c.wordBits + wmin c.wordBits) ∧
          ∀ v, FitsWord c.wordBits v →
            ((2 : Int) ^ c.wordBits ∣ r - v ↔ v = (r - wmin c.wordBits) % 2 ^ c.wordBits + wmin c.wordBits)

/-- alu_add (40_engine.md R121): the exact sum under the result rule, commutative; it overflows exactly when the operands
have the same sign and the exact sum leaves the word range; and the rule's values at 64 bits. -/
def Obligations.AddRule : Prop :=
  (∀ (c : Config) (x y : Int), aluAdd c x y = fit c (x + y) ∧ aluAdd c x y = aluAdd c y x) ∧
    (∀ (c : Config) (x y : Int), c.Valid → FitsWord c.wordBits x → FitsWord c.wordBits y → c.overflowPolicy = .fault →
      (aluAdd c x y = .error .arithmeticOverflow ↔
        ((0 ≤ x ∧ 0 ≤ y ∨ x < 0 ∧ y < 0) ∧ ¬ (wmin c.wordBits ≤ x + y ∧ x + y ≤ wmax c.wordBits)))) ∧
    ∀ (c : Config), c.wordBits = 64 →
      (c.overflowPolicy = .fault → aluAdd c (wmax 64) 1 = .error .arithmeticOverflow) ∧
        (c.overflowPolicy = .wrap → aluAdd c (wmax 64) 1 = .ok (wmin 64)) ∧ aluAdd c (-1) 1 = .ok 0

/-- alu_mul (40_engine.md R122): the exact product under the result rule; a product with 0 is 0, a product with 1 is the
other operand; WMIN * -1 overflows and WMIN * 1 is WMIN. -/
def Obligations.MulRule : Prop :=
  (∀ (c : Config) (x y : Int), aluMul c x y = fit c (x * y)) ∧
    ∀ (c : Config) (x : Int), c.Valid → FitsWord c.wordBits x →
      aluMul c x 0 = .ok 0 ∧ aluMul c 0 x = .ok 0 ∧ aluMul c x 1 = .ok x ∧
        (c.overflowPolicy = .fault → aluMul c (wmin c.wordBits) (-1) = .error .arithmeticOverflow) ∧
        (c.overflowPolicy = .wrap → aluMul c (wmin c.wordBits) (-1) = .ok (wmin c.wordBits)) ∧
        aluMul c (wmin c.wordBits) 1 = .ok (wmin c.wordBits)

/-- alu_lt, alu_eq and alu_nz (40_engine.md R123, R124): the signed comparison and equality as the word 1 or 0, the test of
the jumps, the rule's examples, and that no result leaves the word range. -/
def Obligations.ComparisonRule : Prop :=
  (∀ x y : Int, (x < y → aluLt x y = 1) ∧ (y ≤ x → aluLt x y = 0)) ∧
    (∀ x y : Int, (x = y → aluEq x y = 1) ∧ (x ≠ y → aluEq x y = 0)) ∧
    (∀ x : Int, aluNz x = true ↔ x ≠ 0) ∧ aluLt (-1) 0 = 1 ∧
    (∀ c : Config, c.Valid →
      aluLt (wmin c.wordBits) (wmax c.wordBits) = 1 ∧
        ∀ x y : Int, FitsWord c.wordBits (aluLt x y) ∧ FitsWord c.wordBits (aluEq x y))

/-! ## What each instruction does: its completion and its result -/

/-- ADD completes with the exact sum where that fits a word (41_arithmetic.md R140). All operand forms, the destination one
of ADD's own cells or a source among them. -/
def Obligations.AddCompletes : Prop :=
  ∀ (s : State) (s1 s2 : Param) (dest v1 v2 : Int) (k : Nat),
    Reads s s1 v1 → Reads s s2 v2 → NamesCell s dest k → FitsWord s.config.wordBits (v1 + v2) →
    exec (.add s1 s2 dest) s =
      .next { s with
        mem := s.mem.set k (v1 + v2)
        ip := s.ip + 4
        tick := (s.tick + 1) % 2 ^ s.config.tickBits }

/-- MUL completes with the exact product where that fits a word (41_arithmetic.md R141). -/
def Obligations.MulCompletes : Prop :=
  ∀ (s : State) (s1 s2 : Param) (dest v1 v2 : Int) (k : Nat),
    Reads s s1 v1 → Reads s s2 v2 → NamesCell s dest k → FitsWord s.config.wordBits (v1 * v2) →
    exec (.mul s1 s2 dest) s =
      .next { s with
        mem := s.mem.set k (v1 * v2)
        ip := s.ip + 4
        tick := (s.tick + 1) % 2 ^ s.config.tickBits }

/-- Under the policy wrap, ADD and MUL complete also where the exact result does not fit, with the word that is congruent
to it modulo 2^WORD_BITS (00_scope.md R6, 40_engine.md R120, 41_arithmetic.md R140, R141). -/
def Obligations.ArithmeticWraps : Prop :=
  ∀ (s : State) (s1 s2 : Param) (dest v1 v2 : Int) (k : Nat), s.config.Valid → s.config.overflowPolicy = .wrap →
    Reads s s1 v1 → Reads s s2 v2 → NamesCell s dest k →
    (∃ r, FitsWord s.config.wordBits r ∧ (2 : Int) ^ s.config.wordBits ∣ v1 + v2 - r ∧
      exec (.add s1 s2 dest) s =
        .next { s with
          mem := s.mem.set k r
          ip := s.ip + 4
          tick := (s.tick + 1) % 2 ^ s.config.tickBits }) ∧
    ∃ r, FitsWord s.config.wordBits r ∧ (2 : Int) ^ s.config.wordBits ∣ v1 * v2 - r ∧
      exec (.mul s1 s2 dest) s =
        .next { s with
          mem := s.mem.set k r
          ip := s.ip + 4
          tick := (s.tick + 1) % 2 ^ s.config.tickBits }

/-- LT completes with 1 where the first operand is less than the second, signed, and with 0 otherwise; EQ with 1 where
they are equal and with 0 otherwise (44_compare.md R170, R171). They never overflow. -/
def Obligations.ComparesComplete : Prop :=
  ∀ (s : State) (s1 s2 : Param) (dest v1 v2 : Int) (k : Nat),
    Reads s s1 v1 → Reads s s2 v2 → NamesCell s dest k →
    exec (.lessThan s1 s2 dest) s =
      .next { s with
        mem := s.mem.set k (if v1 < v2 then 1 else 0)
        ip := s.ip + 4
        tick := (s.tick + 1) % 2 ^ s.config.tickBits } ∧
    exec (.equals s1 s2 dest) s =
      .next { s with
        mem := s.mem.set k (if v1 = v2 then 1 else 0)
        ip := s.ip + 4
        tick := (s.tick + 1) % 2 ^ s.config.tickBits }

/-- IN completes with the first input value, which is stored and removed (42_io.md R150, R152). -/
def Obligations.InputCompletes : Prop :=
  ∀ (s : State) (dest v : Int) (q : List Int) (k : Nat), NamesCell s dest k → s.inq = v :: q →
    exec (.input dest) s =
      .next { s with
        mem := s.mem.set k v
        inq := q
        ip := s.ip + 2
        tick := (s.tick + 1) % 2 ^ s.config.tickBits }

/-- OUT completes with its source's value at the end of OUTQ (42_io.md R151, R153). -/
def Obligations.OutputCompletes : Prop :=
  ∀ (s : State) (src : Param) (v : Int), Reads s src v →
    exec (.output src) s =
      .next { s with
        outq := s.outq ++ [v]
        ip := s.ip + 2
        tick := (s.tick + 1) % 2 ^ s.config.tickBits }

/-- JT completes: taken to an existing cell when cmp is not 0, and an advance of 3, whatever the target's value, when it
is 0 (43_jumps.md R160, R162). -/
def Obligations.JumpIfTrueCompletes : Prop :=
  ∀ (s : State) (cmp target : Param) (v1 v2 : Int), Reads s cmp v1 → Reads s target v2 →
    (∀ k, v1 ≠ 0 → NamesCell s v2 k →
      exec (.jumpIfTrue cmp target) s =
        .next { s with ip := k, tick := (s.tick + 1) % 2 ^ s.config.tickBits }) ∧
    (v1 = 0 →
      exec (.jumpIfTrue cmp target) s =
        .next { s with ip := s.ip + 3, tick := (s.tick + 1) % 2 ^ s.config.tickBits })

/-- JF completes: taken to an existing cell when cmp is 0, and an advance of 3, whatever the target's value, when it is
not 0 (43_jumps.md R161, R162). -/
def Obligations.JumpIfFalseCompletes : Prop :=
  ∀ (s : State) (cmp target : Param) (v1 v2 : Int), Reads s cmp v1 → Reads s target v2 →
    (∀ k, v1 = 0 → NamesCell s v2 k →
      exec (.jumpIfFalse cmp target) s =
        .next { s with ip := k, tick := (s.tick + 1) % 2 ^ s.config.tickBits }) ∧
    (v1 ≠ 0 →
      exec (.jumpIfFalse cmp target) s =
        .next { s with ip := s.ip + 3, tick := (s.tick + 1) % 2 ^ s.config.tickBits })

/-- HALT completes: the run is Halted, IP stays, TICK counts it, nothing else changes (45_halt.md R180). -/
def Obligations.HaltCompletes : Prop :=
  ∀ s : State,
    exec .halt s = .next { s with runState := .halted, tick := (s.tick + 1) % 2 ^ s.config.tickBits }

/-! ## Where an instruction faults, in the order of 60_exceptions.md R208 -/

/-- Check 6: the first source, in parameter order, that is a Position out of range faults with its address, whatever the
instruction does with the later ones and with its destination (40_engine.md R114, R116, 60_exceptions.md R204). -/
def Obligations.SourceOutOfRangeFaults : Prop :=
  ∀ (s : State) (i : Instr) (before after : List Param) (a : Int),
    i.sources = before ++ .position a :: after → (∀ p ∈ before, ∃ v, Reads s p v) → OutOfRange s a →
    exec i s = .next (faultEntry (.outOfBoundsAddress a) s)

/-- Check 7: with every source readable, a destination out of range faults with its address, before any input is missed
and before any overflow (40_engine.md R115, 60_exceptions.md R204). -/
def Obligations.DestinationOutOfRangeFaults : Prop :=
  ∀ (s : State) (i : Instr) (d : Int), i.dest = some d → (∀ p ∈ i.sources, ∃ v, Reads s p v) → OutOfRange s d →
    exec i s = .next (faultEntry (.outOfBoundsAddress d) s)

/-- Check 8: IN with a destination in range and an empty INQ faults with InputExhausted (42_io.md R150,
60_exceptions.md R206). -/
def Obligations.EmptyInputFaults : Prop :=
  ∀ (s : State) (dest : Int) (k : Nat), NamesCell s dest k → s.inq = [] →
    exec (.input dest) s = .next (faultEntry .inputExhausted s)

/-- Check 9: a jump that is taken to a value that names no cell faults with that value (43_jumps.md R162). -/
def Obligations.TakenJumpOutOfRangeFaults : Prop :=
  ∀ (s : State) (cmp target : Param) (v1 v2 : Int), Reads s cmp v1 → Reads s target v2 → OutOfRange s v2 →
    (v1 ≠ 0 → exec (.jumpIfTrue cmp target) s = .next (faultEntry (.outOfBoundsAddress v2) s)) ∧
      (v1 = 0 → exec (.jumpIfFalse cmp target) s = .next (faultEntry (.outOfBoundsAddress v2) s))

/-- Check 10: under the policy fault, ADD and MUL fault with ArithmeticOverflow where the exact result does not fit a word
(60_exceptions.md R207). -/
def Obligations.OverflowFaults : Prop :=
  ∀ (s : State) (s1 s2 : Param) (dest v1 v2 : Int) (k : Nat), s.config.overflowPolicy = .fault →
    Reads s s1 v1 → Reads s s2 v2 → NamesCell s dest k →
    (¬ FitsWord s.config.wordBits (v1 + v2) →
      exec (.add s1 s2 dest) s = .next (faultEntry .arithmeticOverflow s)) ∧
    (¬ FitsWord s.config.wordBits (v1 * v2) →
      exec (.mul s1 s2 dest) s = .next (faultEntry .arithmeticOverflow s))

/-! ## Frames -/

/-- ADD, MUL, LT and EQ change nothing but the destination's cell, IP and TICK, or take a fault entry, which stores
nothing (20_memory.md R52, 10_state.md R33, 40_engine.md R118, R119). -/
def Obligations.StoringFrame : Prop :=
  ∀ (i : Instr) (s1 s2 : Param) (dest : Int) (s t : State),
    i ∈ [Instr.add s1 s2 dest, .mul s1 s2 dest, .lessThan s1 s2 dest, .equals s1 s2 dest] → exec i s = .next t →
    t.config = s.config ∧ t.inq = s.inq ∧ t.outq = s.outq ∧ t.stepEnable = s.stepEnable ∧ t.trace = s.trace ∧
      (t.runState = s.runState ∧ t.fault = s.fault ∨ ∃ r, t = faultEntry r s) ∧
      (∀ k, addrOf dest s = .ok k → ∀ a : Int, a ≠ (k : Int) → memRead a t = memRead a s) ∧
      ∀ r, addrOf dest s = .error r → ∀ a : Int, memRead a t = memRead a s

/-- IN changes nothing but the destination's cell, INQ, IP and TICK, or takes a fault entry, which stores nothing and
consumes nothing (42_io.md R150, R152, 40_engine.md R119). -/
def Obligations.InputFrame : Prop :=
  ∀ (dest : Int) (s t : State), exec (.input dest) s = .next t →
    t.config = s.config ∧ t.outq = s.outq ∧ t.stepEnable = s.stepEnable ∧ t.trace = s.trace ∧
      (t.runState = s.runState ∧ t.fault = s.fault ∧ t.inq = s.inq.tail ∨ ∃ r, t = faultEntry r s) ∧
      (∀ k, addrOf dest s = .ok k → ∀ a : Int, a ≠ (k : Int) → memRead a t = memRead a s) ∧
      ∀ r, addrOf dest s = .error r → ∀ a : Int, memRead a t = memRead a s

/-- OUT changes nothing but OUTQ, IP and TICK, or takes a fault entry; it never writes memory (42_io.md R151). -/
def Obligations.OutputFrame : Prop :=
  ∀ (src : Param) (s t : State), exec (.output src) s = .next t →
    t.config = s.config ∧ t.inq = s.inq ∧ t.stepEnable = s.stepEnable ∧ t.trace = s.trace ∧
      (t.runState = s.runState ∧ t.fault = s.fault ∧ (∃ v, t.outq = s.outq ++ [v]) ∨ ∃ r, t = faultEntry r s) ∧
      ∀ a : Int, memRead a t = memRead a s

/-- JT and JF change nothing but IP and TICK, or take a fault entry; they never write their target (43_jumps.md R160,
R161). -/
def Obligations.JumpFrame : Prop :=
  ∀ (i : Instr) (cmp target : Param) (s t : State),
    i ∈ [Instr.jumpIfTrue cmp target, .jumpIfFalse cmp target] → exec i s = .next t →
    t.config = s.config ∧ t.inq = s.inq ∧ t.outq = s.outq ∧ t.stepEnable = s.stepEnable ∧ t.trace = s.trace ∧
      (t.runState = s.runState ∧ t.fault = s.fault ∨ ∃ r, t = faultEntry r s) ∧
      ∀ a : Int, memRead a t = memRead a s

/-- HALT changes nothing but RUN_STATE and TICK; it writes no memory, consumes no input, produces no output and never
faults (45_halt.md R180, 60_exceptions.md R211). -/
def Obligations.HaltFrame : Prop :=
  ∀ (s t : State), exec .halt s = .next t →
    t.config = s.config ∧ t.inq = s.inq ∧ t.outq = s.outq ∧ t.stepEnable = s.stepEnable ∧ t.trace = s.trace ∧
      t.fault = s.fault ∧ t.ip = s.ip ∧ ∀ a : Int, memRead a t = memRead a s

/-! ## The step -/

/-- An enabled step runs the instruction its cells decode to, and adds only the trace record, if there is a trace port
(40_engine.md R110 to R113, 60_exceptions.md R217). -/
def Obligations.StepRunsDecodedInstruction : Prop :=
  ∀ (s : State) (i : Instr), s.runState = .running → s.stepEnable = true → decode (s.mem.drop s.ip) = .ok i →
    step s = traced s (exec i s) ∧ (s.config.tracePort = .absent → step s = exec i s)

/-- An enabled step whose cells decode to no instruction takes the fault entry of the check that rejects them; a missing
cell faults with its address (40_engine.md R112, R113, 60_exceptions.md R202 to R205). -/
def Obligations.StepFaultsOnRejectedDecode : Prop :=
  ∀ (s : State) (j : Reject), s.runState = .running → s.stepEnable = true → decode (s.mem.drop s.ip) = .error j →
    step s =
      traced s (.next (faultEntry
        (match j with
          | .missingCell n => .outOfBoundsAddress ((s.ip : Int) + n)
          | .unknownOpcode _ => .unknownOpcode
          | .illegalMode _ => .illegalMode
          | .invalidWriteTarget => .invalidWriteTarget) s))

/-- Where RUN_STATE is not Running or step_enable is not asserted no instruction executes and nothing changes
(40_engine.md R110, R128). That a step asked for there answers the same state is the model's choice (log 5). -/
def Obligations.StepNotEnabledKeepsState : Prop :=
  ∀ s : State, s.runState ≠ .running ∨ s.stepEnable = false → step s = .next s

/-- Halted and Faulted are terminal: no number of steps changes anything (10_state.md R24, 60_exceptions.md R210). That
the steps answer the same state is the model's choice (log 5). -/
def Obligations.EndedRunStaysEnded : Prop :=
  ∀ (n : Nat) (s : State), s.runState = .halted ∨ s.runState = .faulted → Host.Core.run Sys2Proof.core n s = .next s

/-- The engine never waits: an enabled step answers a next state, which counts an instruction or is Faulted
(40_engine.md R127). That a step answers a state also where none is enabled is the model's choice (log 5). -/
def Obligations.StepAlwaysAnswersNext : Prop :=
  ∀ s : State, ∃ t, step s = .next t ∧
    (s.stepEnabled = true → t.runState = .faulted ∨ t.tick = (s.tick + 1) % 2 ^ s.config.tickBits)

/-- A step that faults commits nothing: it records the cause, IP, the fetched word or 0, the address, which is out of range
for OutOfBoundsAddress and 0 for every other cause, and TICK; RUN_STATE becomes Faulted; nothing else changes but the
trace output (40_engine.md R119, 60_exceptions.md R209). -/
def Obligations.FaultedStepCommitsNothing : Prop :=
  ∀ s t : State, s.stepEnabled = true → step s = .next t → t.runState = .faulted →
    ∃ (c : FaultCause) (a : Int), c ≠ .none ∧ (c = .outOfBoundsAddress → OutOfRange s a) ∧
      (c ≠ .outOfBoundsAddress → a = 0) ∧
      t = { s with
        runState := .faulted
        fault := { cause := c, ip := s.ip, word := (s.mem[s.ip]?).getD 0, addr := a, tick := s.tick }
        trace := t.trace }

/-- A run becomes Halted by HALT alone, and by every HALT (40_engine.md R117). -/
def Obligations.OnlyHaltHalts : Prop :=
  ∀ s t : State, s.stepEnabled = true → step s = .next t →
    (t.runState = .halted ↔ decode (s.mem.drop s.ip) = .ok .halt)

/-- The next ip of a step that does not fault: HALT leaves it, a JT or JF that is taken sets it to its target's value, the
index of an existing cell, and every other instruction, a JT or JF that is not taken among them, advances it by its width
(40_engine.md R117, 30_encoding.md R85). -/
def Obligations.NextIpRule : Prop :=
  ∀ (s t : State) (i : Instr), s.stepEnabled = true → decode (s.mem.drop s.ip) = .ok i → step s = .next t →
    t.runState ≠ .faulted →
    (i = .halt → t.ip = s.ip) ∧
      (∀ target, JumpTaken s i target → Reads s target (t.ip : Int) ∧ t.ip < s.mem.length) ∧
      (i ≠ .halt → (∀ target, ¬ JumpTaken s i target) → t.ip = s.ip + i.width)

/-- TICK counts completed steps, HALT included and a faulting step excluded, modulo 2^TICK_BITS (10_state.md R25,
40_engine.md R118, R119). -/
def Obligations.TickCountsCompletedSteps : Prop :=
  ∀ s t : State, s.stepEnabled = true → step s = .next t →
    t.tick = if t.runState = .faulted then s.tick else (s.tick + 1) % 2 ^ s.config.tickBits

/-- OUTQ is append-only: a step appends nothing, or an OUT appends its source's one value (10_state.md R27, 42_io.md
R153). -/
def Obligations.OutputOnlyAppended : Prop :=
  ∀ s t : State, step s = .next t →
    t.outq = s.outq ∨
      ∃ (src : Param) (v : Int), decode (s.mem.drop s.ip) = .ok (.output src) ∧ Reads s src v ∧ t.outq = s.outq ++ [v]

/-- INQ is only consumed, by IN alone, one value at a time, and the value removed is the one stored (10_state.md R26,
42_io.md R152). -/
def Obligations.InputOnlyConsumedByIn : Prop :=
  ∀ s t : State, step s = .next t →
    t.inq = s.inq ∨
      ∃ (dest v : Int) (k : Nat), decode (s.mem.drop s.ip) = .ok (.input dest) ∧ NamesCell s dest k ∧
        s.inq = v :: t.inq ∧ t.mem = s.mem.set k v

/-- A step writes at most one cell, and only the one its instruction's destination names: only ADD, MUL, IN, LT and EQ
write memory (20_memory.md R50, R52, 10_state.md R35). -/
def Obligations.MemoryWrittenOnlyAtDestination : Prop :=
  ∀ s t : State, step s = .next t →
    t.mem = s.mem ∨
      ∃ (i : Instr) (d v : Int) (k : Nat), decode (s.mem.drop s.ip) = .ok i ∧ i.dest = some d ∧ NamesCell s d k ∧
        t.mem = s.mem.set k v

/-- MEM_LEN, the parameters and the host's step_enable are the same after every step (00_scope.md R7, 20_memory.md R53,
40_engine.md R128). -/
def Obligations.MemLenAndConfigFixed : Prop :=
  ∀ s t : State, step s = .next t →
    t.mem.length = s.mem.length ∧ t.config = s.config ∧ t.stepEnable = s.stepEnable

/-- With a trace port every enabled step emits one record of TICK and IP before it, the fetched word or 0, and how it ended;
without one none is emitted; and the port changes nothing else (60_exceptions.md R217). The list of records is the
model's own field (log 7). -/
def Obligations.TraceRecordsEachStep : Prop :=
  ∀ (s t : State), s.stepEnabled = true → step s = .next t →
    (s.config.tracePort = .absent → t.trace = s.trace) ∧
    (s.config.tracePort = .present →
      t.trace = s.trace ++
        [{ tick := s.tick, ip := s.ip, word := (s.mem[s.ip]?).getD 0,
           outcome :=
            if t.runState = .halted then .halted else if t.runState = .faulted then .faulted else .completed }]) ∧
    ∃ u, step { s with config := { s.config with tracePort := .absent } } = .next u ∧
      t = { u with config := s.config, trace := t.trace }

/-- The step is a function of MEM, IP, INQ, the parameters and whether it is enabled: two states that agree on these agree
after a step on MEM, IP, INQ and RUN_STATE, on what was appended to OUTQ, and on the fault a running engine records, but
for TICK (40_engine.md R125). -/
def Obligations.StepDependsOnlyOnItsInputs : Prop :=
  ∀ s u : State, s.mem = u.mem → s.ip = u.ip → s.inq = u.inq → s.runState = u.runState → s.stepEnable = u.stepEnable →
    s.config.wordBits = u.config.wordBits → s.config.overflowPolicy = u.config.overflowPolicy →
    ∃ s' u', step s = .next s' ∧ step u = .next u' ∧ s'.mem = u'.mem ∧ s'.ip = u'.ip ∧ s'.inq = u'.inq ∧
      s'.runState = u'.runState ∧ (∃ out, s'.outq = s.outq ++ out ∧ u'.outq = u.outq ++ out) ∧
      (s.runState = .running → s'.runState = .faulted →
        s'.fault.cause = u'.fault.cause ∧ s'.fault.ip = u'.fault.ip ∧ s'.fault.word = u'.fault.word ∧
          s'.fault.addr = u'.fault.addr)

/-! ## Invariants -/

/-- Every cell, every queued value and FAULT_WORD stay words of the machine's width, under either overflow policy
(00_scope.md R5, R6, 10_state.md R22). -/
def Obligations.StepKeepsWordsFit : Prop :=
  ∀ s t : State, s.config.Valid → WordsFit s → step s = .next t → WordsFit t

/-- While Running, IP stays at most MEM_LEN (10_state.md R23). -/
def Obligations.StepKeepsIpInRange : Prop :=
  ∀ s t : State, IpInRange s → step s = .next t → IpInRange t

/-- TICK and FAULT_TICK stay counters of TICK_BITS bits (10_state.md R25, R32). -/
def Obligations.StepKeepsTickInRange : Prop :=
  ∀ s t : State, TickInRange s → step s = .next t → TickInRange t

/-- The fault registers are 0 unless the run is Faulted, and there they describe the instruction at IP (10_state.md R28 to
R32). -/
def Obligations.StepKeepsFaultRecordSound : Prop :=
  ∀ s t : State, FaultRecordSound s → step s = .next t → FaultRecordSound t

/-- The reset state meets every invariant. Its memory and its input are the model's choice (log 3, log 4). -/
def Obligations.ResetSound : Prop := Sound State.reset

/-- A host move that is answered keeps every invariant: a load, a start and a pause (70_reset_and_hazards.md R230, R235). -/
def Obligations.HostMovesKeepSound : Prop :=
  ∀ (m : HostMove) (s t : State), Sound s → hostMove m s = .next t → Sound t

/-! ## Reset and the host -/

/-- The host's side: a start in any RUN_STATE sets exactly the fields of 70_reset_and_hazards.md R230 and leaves MEM
(R231); a load replaces MEM when no run is Running, is a race when one is, and a value that is no word is refused
(R234, R240; the stops are the model's choice, log 10); step_enable is a level the host drives (R128); and a run has a
result, the tuple of R236, exactly when it is Halted or Faulted. -/
def Obligations.HostSideRule : Prop :=
  (∀ (s : State) (inputs : List Int), Memory.wf s.config.wordBits inputs →
    hostMove (.start inputs) s =
      .next { s with
        ip := 0, runState := .running, tick := 0, inq := inputs, outq := []
        fault := { cause := .none, ip := 0, word := 0, addr := 0, tick := 0 } }) ∧
    (∀ (s : State) (image : List Int), s.runState ≠ .running → Memory.wf s.config.wordBits image →
      hostMove (.load image) s = .next { s with mem := image }) ∧
    (∀ (s : State) (image : List Int), s.runState = .running → hostMove (.load image) s = .fault .hostRace) ∧
    (∀ (s : State) (vs : List Int), ¬ Memory.wf s.config.wordBits vs →
      hostMove (.start vs) s = .refused .valueNotAWord ∧
        (s.runState ≠ .running → hostMove (.load vs) s = .refused .valueNotAWord)) ∧
    (∀ (s : State) (b : Bool), hostMove (.setStepEnable b) s = .next { s with stepEnable := b }) ∧
    ∀ s : State,
      (s.runState = .halted ∨ s.runState = .faulted →
        s.result = some ⟨s.runState, s.mem, s.outq, s.inq, s.ip, s.tick, s.fault⟩) ∧
      (s.runState = .idle ∨ s.runState = .running → s.result = none)

/-- The values of reset (70_reset_and_hazards.md R230, R233) and of power-on (R232), and that reset is what the host's boot
sequence makes of power-on (R234), with an empty image and no input, which are the model's choice (log 3, log 4,
log 6). -/
def Obligations.ResetAndPowerOnValues : Prop :=
  State.reset.ip = 0 ∧ State.reset.runState = .running ∧ State.reset.tick = 0 ∧ State.reset.outq = [] ∧
    State.reset.fault = { cause := .none, ip := 0, word := 0, addr := 0, tick := 0 } ∧
    (∀ c : Config,
      (State.powerOn c).runState = .idle ∧ (State.powerOn c).ip = 0 ∧ (State.powerOn c).tick = 0 ∧
        (State.powerOn c).inq = [] ∧ (State.powerOn c).outq = [] ∧
        (State.powerOn c).fault = { cause := .none, ip := 0, word := 0, addr := 0, tick := 0 }) ∧
    ∃ s1 s2, hostMove (.load []) (State.powerOn Config.default) = .next s1 ∧ hostMove (.start []) s1 = .next s2 ∧
      hostMove (.setStepEnable true) s2 = .next State.reset
end

