-- ==== Sys2Proof/Laws/Decode.lean ====
section
/-! SUPPORT. The decoder inverted once: what it accepted, or which of the checks 1 to 5 of 60_exceptions.md R208 it
rejected at. -/

namespace Sys2Proof

/-- The opcode map and the numbers of R84 are each other's inverse. -/
theorem opcodeOf_eq_some {n : Nat} {op : Opcode} : opcodeOf n = some op ↔ n = op.number := by
  constructor
  · intro h
    unfold opcodeOf at h
    split at h <;> cases h <;> rfl
  · rintro rfl
    cases op <;> rfl

/-- What a decode that answers an instruction has checked (40_engine.md R113). -/
theorem decode_ok_cases {m : List Int} {i : Instr} (h : decode m = .ok i) :
    ∃ w ops op, m = w :: ops ∧ 0 ≤ w ∧ opcodeOf (w.toNat % 100) = some op ∧ modesLegal op w.toNat = true ∧
      op.arity ≤ ops.length ∧ destinationImmediate op w.toNat = false ∧ i = buildInstr op w.toNat ops := by
  unfold decode at h
  split at h
  · cases h
  · rename_i w ops
    split at h
    · cases h
    · split at h
      · cases h
      · rename_i op hop
        split at h
        · cases h
        · split at h
          · cases h
          · split at h
            · cases h
            · rename_i hw hm ha hd
              refine ⟨w, ops, op, rfl, by omega, hop, by simpa using hm, by omega, by simpa using hd, ?_⟩
              cases h
              rfl

/-- The cells of a decoded instruction are cells of the memory it was read from. -/
theorem cells_buildInstr {op : Opcode} {n : Nat} {ops : List Int} (h : op.arity ≤ ops.length) :
    (buildInstr op n ops).cells = ops.take op.arity := by
  have hc : ∀ (m : Nat) (c : Int), (Param.ofMode m c).cell = c := fun m c => by
    unfold Param.ofMode; split <;> rfl
  rcases ops with _ | ⟨a, _ | ⟨b, _ | ⟨c, ops⟩⟩⟩ <;> cases op <;> simp_all [Opcode.arity, buildInstr, Instr.cells]

end Sys2Proof
end

