-- ==== Sys2Proof/Laws/State.lean ====
section
/-! SUPPORT. One lemma per field per update of the state: what each update writes and what it leaves. -/

namespace Sys2Proof.Machine

variable (s : State)

@[simp] theorem commit_config (e : Effects) (o : StepOutcome) : (commit e o s).config = s.config := rfl
@[simp] theorem commit_mem (e : Effects) (o : StepOutcome) : (commit e o s).mem = e.memAfter s.mem := rfl
@[simp] theorem commit_ip (e : Effects) (o : StepOutcome) : (commit e o s).ip = o.nextIp s.ip := rfl
@[simp] theorem commit_runState (e : Effects) (o : StepOutcome) : (commit e o s).runState = o.nextRunState s.runState := rfl
@[simp] theorem commit_tick (e : Effects) (o : StepOutcome) : (commit e o s).tick = nextTick s.config s.tick := rfl
@[simp] theorem commit_inq (e : Effects) (o : StepOutcome) : (commit e o s).inq = e.inqAfter s.inq := rfl
@[simp] theorem commit_outq (e : Effects) (o : StepOutcome) : (commit e o s).outq = e.outqAfter s.outq := rfl
@[simp] theorem commit_fault (e : Effects) (o : StepOutcome) : (commit e o s).fault = s.fault := rfl
@[simp] theorem commit_stepEnable (e : Effects) (o : StepOutcome) : (commit e o s).stepEnable = s.stepEnable := rfl
@[simp] theorem commit_trace (e : Effects) (o : StepOutcome) : (commit e o s).trace = s.trace := rfl

@[simp] theorem faultEntry_config (r : Raise) : (faultEntry r s).config = s.config := rfl
@[simp] theorem faultEntry_mem (r : Raise) : (faultEntry r s).mem = s.mem := rfl
@[simp] theorem faultEntry_ip (r : Raise) : (faultEntry r s).ip = s.ip := rfl
@[simp] theorem faultEntry_runState (r : Raise) : (faultEntry r s).runState = .faulted := rfl
@[simp] theorem faultEntry_tick (r : Raise) : (faultEntry r s).tick = s.tick := rfl
@[simp] theorem faultEntry_inq (r : Raise) : (faultEntry r s).inq = s.inq := rfl
@[simp] theorem faultEntry_outq (r : Raise) : (faultEntry r s).outq = s.outq := rfl
@[simp] theorem faultEntry_fault (r : Raise) : (faultEntry r s).fault = 
      { cause := r.cause, ip := s.ip, word := s.fetchedWord, addr := r.addr, tick := s.tick } := rfl
@[simp] theorem faultEntry_stepEnable (r : Raise) : (faultEntry r s).stepEnable = s.stepEnable := rfl
@[simp] theorem faultEntry_trace (r : Raise) : (faultEntry r s).trace = s.trace := rfl

@[simp] theorem emitTrace_config (t : State) : (emitTrace s t).config = t.config := rfl
@[simp] theorem emitTrace_mem (t : State) : (emitTrace s t).mem = t.mem := rfl
@[simp] theorem emitTrace_ip (t : State) : (emitTrace s t).ip = t.ip := rfl
@[simp] theorem emitTrace_runState (t : State) : (emitTrace s t).runState = t.runState := rfl
@[simp] theorem emitTrace_tick (t : State) : (emitTrace s t).tick = t.tick := rfl
@[simp] theorem emitTrace_inq (t : State) : (emitTrace s t).inq = t.inq := rfl
@[simp] theorem emitTrace_outq (t : State) : (emitTrace s t).outq = t.outq := rfl
@[simp] theorem emitTrace_fault (t : State) : (emitTrace s t).fault = t.fault := rfl
@[simp] theorem emitTrace_stepEnable (t : State) : (emitTrace s t).stepEnable = t.stepEnable := rfl
@[simp] theorem emitTrace_trace (t : State) : (emitTrace s t).trace = traceAfter s t := rfl

@[simp] theorem runStart_config (inputs : List Int) : (runStart inputs s).config = s.config := rfl
@[simp] theorem runStart_mem (inputs : List Int) : (runStart inputs s).mem = s.mem := rfl
@[simp] theorem runStart_ip (inputs : List Int) : (runStart inputs s).ip = 0 := rfl
@[simp] theorem runStart_runState (inputs : List Int) : (runStart inputs s).runState = .running := rfl
@[simp] theorem runStart_tick (inputs : List Int) : (runStart inputs s).tick = 0 := rfl
@[simp] theorem runStart_inq (inputs : List Int) : (runStart inputs s).inq = inputs := rfl
@[simp] theorem runStart_outq (inputs : List Int) : (runStart inputs s).outq = [] := rfl
@[simp] theorem runStart_fault (inputs : List Int) : (runStart inputs s).fault = .clear := rfl
@[simp] theorem runStart_stepEnable (inputs : List Int) : (runStart inputs s).stepEnable = s.stepEnable := rfl
@[simp] theorem runStart_trace (inputs : List Int) : (runStart inputs s).trace = s.trace := rfl

@[simp] theorem withFetchWord_config (n w : Nat) : (s.withFetchWord n w).config = s.config := rfl
@[simp] theorem withFetchWord_mem (n w : Nat) : (s.withFetchWord n w).mem = placeCells s.ip (tableCells s.config.wordBits n w) s.mem := rfl
@[simp] theorem withFetchWord_ip (n w : Nat) : (s.withFetchWord n w).ip = s.ip := rfl
@[simp] theorem withFetchWord_runState (n w : Nat) : (s.withFetchWord n w).runState = .running := rfl
@[simp] theorem withFetchWord_tick (n w : Nat) : (s.withFetchWord n w).tick = s.tick := rfl
@[simp] theorem withFetchWord_inq (n w : Nat) : (s.withFetchWord n w).inq = s.inq := rfl
@[simp] theorem withFetchWord_outq (n w : Nat) : (s.withFetchWord n w).outq = s.outq := rfl
@[simp] theorem withFetchWord_fault (n w : Nat) : (s.withFetchWord n w).fault = s.fault := rfl
@[simp] theorem withFetchWord_stepEnable (n w : Nat) : (s.withFetchWord n w).stepEnable = true := rfl
@[simp] theorem withFetchWord_trace (n w : Nat) : (s.withFetchWord n w).trace = s.trace := rfl

/-! The parts of the commit, on each shape of effect and outcome. -/

@[simp] theorem memAfter_some (k : Nat) (v : Int) (p : Bool) (o : Option Int) (m : List Int) :
    (Effects.mk (some (k, v)) p o).memAfter m = writeCell k v m := rfl
@[simp] theorem memAfter_none (p : Bool) (o : Option Int) (m : List Int) : (Effects.mk none p o).memAfter m = m := rfl
@[simp] theorem inqAfter_true (w : Option (Nat × Int)) (o : Option Int) (q : List Int) :
    (Effects.mk w true o).inqAfter q = inPop q := rfl
@[simp] theorem inqAfter_false (w : Option (Nat × Int)) (o : Option Int) (q : List Int) :
    (Effects.mk w false o).inqAfter q = q := rfl
@[simp] theorem outqAfter_some (w : Option (Nat × Int)) (p : Bool) (v : Int) (q : List Int) :
    (Effects.mk w p (some v)).outqAfter q = outPush v q := rfl
@[simp] theorem outqAfter_none (w : Option (Nat × Int)) (p : Bool) (q : List Int) :
    (Effects.mk w p none).outqAfter q = q := rfl
@[simp] theorem nextIp_advance (k ip : Nat) : (StepOutcome.advance k).nextIp ip = ip + k := rfl
@[simp] theorem nextIp_jump (t ip : Nat) : (StepOutcome.jump t).nextIp ip = t := rfl
@[simp] theorem nextIp_halt (ip : Nat) : StepOutcome.halt.nextIp ip = ip := rfl
@[simp] theorem nextRunState_advance (k : Nat) (r : RunState) : (StepOutcome.advance k).nextRunState r = r := rfl
@[simp] theorem nextRunState_jump (t : Nat) (r : RunState) : (StepOutcome.jump t).nextRunState r = r := rfl
@[simp] theorem nextRunState_halt (r : RunState) : StepOutcome.halt.nextRunState r = .halted := rfl

/-! What a raise records. -/

@[simp] theorem cause_outOfBounds (a : Int) : (Raise.outOfBoundsAddress a).cause = .outOfBoundsAddress := rfl
@[simp] theorem addr_outOfBounds (a : Int) : (Raise.outOfBoundsAddress a).addr = a := rfl

/-- Every raise records a cause (60_exceptions.md R201). -/
theorem cause_ne_none (r : Raise) : r.cause ≠ .none := by cases r <;> simp [Raise.cause]

/-- Only OutOfBoundsAddress records an address (10_state.md R31). -/
theorem addr_eq_zero (r : Raise) (h : r.cause ≠ .outOfBoundsAddress) : r.addr = 0 := by
  cases r <;> first | rfl | exact absurd rfl h

end Sys2Proof.Machine
end

