-- ==== Sys2Proof/Laws/Memory.lean ====
section
/-! SUPPORT. The memory operations: each keeps the form memory has, and the reset memory has it. -/

namespace Sys2Proof.Machine

theorem reset_memory_wf : Memory.wf State.reset.config.wordBits State.reset.mem := by decide

theorem powerOn_memory_wf (c : Config) : Memory.wf c.wordBits (State.powerOn c).mem :=
  fun _ h => absurd h List.not_mem_nil

/-- A write of a word keeps the form (20_memory.md R52). -/
theorem writeCell_keeps_wf {bits k : Nat} {v : Int} {m : List Int} (hm : Memory.wf bits m) (hv : FitsWord bits v) :
    Memory.wf bits (writeCell k v m) := by
  intro w hw
  rcases List.mem_or_eq_of_mem_set hw with h | rfl
  · exact hm w h
  · exact hv

@[simp] theorem writeCell_length (k : Nat) (v : Int) (m : List Int) : (writeCell k v m).length = m.length := by
  simp [writeCell]

/-- Taking the first input keeps the form of the queue (42_io.md R152). -/
theorem inPop_keeps_wf {bits : Nat} {q : List Int} (h : Memory.wf bits q) : Memory.wf bits (inPop q) :=
  fun v hv => h v (List.mem_of_mem_tail hv)

/-- Appending a word keeps the form of the queue (42_io.md R153). -/
theorem outPush_keeps_wf {bits : Nat} {v : Int} {q : List Int} (h : Memory.wf bits q) (hv : FitsWord bits v) :
    Memory.wf bits (outPush v q) := by
  intro w hw
  rcases List.mem_append.1 hw with hw | hw
  · exact h w hw
  · simpa using List.mem_singleton.1 hw ▸ hv

/-- Placing words keeps the form, for a machine wide enough to hold 0. -/
theorem placeCells_keeps_wf {bits k : Nat} {cs m : List Int} (h0 : FitsWord bits 0) (hc : Memory.wf bits cs)
    (hm : Memory.wf bits m) : Memory.wf bits (placeCells k cs m) := by
  intro v hv
  rcases List.mem_append.1 hv with hv | hv
  · rcases List.mem_append.1 hv with hv | hv
    · rcases List.mem_append.1 (List.mem_of_mem_take hv) with hv | hv
      · exact hm v hv
      · exact List.eq_of_mem_replicate hv ▸ h0
    · exact hc v hv
  · exact hm v (List.mem_of_mem_drop hv)

/-- A cell of a well-formed memory holds a word. -/
theorem wf_getElem? {bits a : Nat} {v : Int} {m : List Int} (hm : Memory.wf bits m) (h : m[a]? = some v) :
    FitsWord bits v := hm v (List.mem_of_getElem? h)

/-- Zero fits every word of at least one bit. -/
theorem fitsWord_zero (bits : Nat) : FitsWord bits 0 := by
  have : 1 ≤ 2 ^ (bits - 1) := Nat.one_le_two_pow
  constructor <;> simp only [wmin, wmax] <;> omega

/-- The fetched word of a well-formed memory fits (10_state.md R30). -/
theorem fetchedWord_fits {s : State} (hm : Memory.wf s.config.wordBits s.mem) :
    FitsWord s.config.wordBits s.fetchedWord := by
  unfold State.fetchedWord
  rw [List.getD_eq_getElem?_getD]
  cases h : s.mem[s.ip]? with
  | none => exact fitsWord_zero _
  | some v => exact wf_getElem? hm h

end Sys2Proof.Machine
end

