-- ==== Sys2Proof/Laws/Ops.lean ====
section
/-! SUPPORT. What each shared operation can do, said once: the address check, the memory read, the operands, the result
rule, and what the meaning of every instruction comes to (`exec_eq_finish`). -/

namespace Sys2Proof.Machine

variable {s t : State}

/-! ## A stage that raises ends the step (40_engine.md R111) -/

@[simp] theorem ok_bind {α β : Type} (a : α) (f : α → Except Raise β) : (Except.ok a >>= f) = f a := rfl

@[simp] theorem error_bind {α β : Type} (r : Raise) (f : α → Except Raise β) : (Except.error r >>= f) = .error r := rfl

@[simp] theorem pure_eq_ok {α : Type} (a : α) : (pure a : Except Raise α) = .ok a := rfl

@[simp] theorem throw_eq_error {α : Type} (r : Raise) : (throw r : Except Raise α) = .error r := rfl

/-! ## Addresses and operands -/

theorem checkAddress_inRange {k : Nat} (h : k < s.mem.length) : checkAddress (k : Int) s = .ok k := by
  have : ¬ ((k : Int) < 0 ∨ (k : Int) ≥ (s.memLen : Int)) := by rw [State.memLen]; omega
  rw [checkAddress, if_neg this, Int.toNat_natCast]

theorem checkAddress_outOfRange {a : Int} (h : OutOfRange s a) :
    checkAddress a s = .error (.outOfBoundsAddress a) := by
  have : a < 0 ∨ a ≥ (s.memLen : Int) := h
  simp [checkAddress, this]

/-- The address check answers the cell named, or raises OutOfBoundsAddress with an address out of range
(20_memory.md R51 to R54). -/
theorem checkAddress_cases (a : Int) (s : State) :
    (∃ k, NamesCell s a k ∧ checkAddress a s = .ok k) ∨
      (OutOfRange s a ∧ checkAddress a s = .error (.outOfBoundsAddress a)) := by
  by_cases h : OutOfRange s a
  · exact .inr ⟨h, checkAddress_outOfRange h⟩
  · obtain ⟨k, rfl⟩ := Int.eq_ofNat_of_zero_le (a := a) (by simp only [OutOfRange] at h; omega)
    have hk : k < s.mem.length := by simp only [OutOfRange] at h; omega
    exact .inl ⟨k, ⟨rfl, hk⟩, checkAddress_inRange hk⟩

theorem checkAddress_ok {a : Int} {k : Nat} (h : checkAddress a s = .ok k) : NamesCell s a k := by
  obtain ⟨k', hn, hk⟩ | ⟨-, hk⟩ := checkAddress_cases a s
  · rw [hk] at h; cases h; exact hn
  · rw [hk] at h; cases h

theorem checkAddress_error {a : Int} {r : Raise} (h : checkAddress a s = .error r) :
    OutOfRange s a ∧ r = .outOfBoundsAddress a := by
  obtain ⟨k', -, hk⟩ | ⟨ho, hk⟩ := checkAddress_cases a s
  · rw [hk] at h; cases h
  · rw [hk] at h; cases h; exact ⟨ho, rfl⟩

/-- A read answers the content of the cell, or raises OutOfBoundsAddress (R51). -/
theorem memRead_cases (a : Int) (s : State) :
    (∃ k v, NamesCell s a k ∧ s.mem[k]? = some v ∧ memRead a s = .ok v) ∨
      (OutOfRange s a ∧ memRead a s = .error (.outOfBoundsAddress a)) := by
  obtain ⟨k, hn, hk⟩ | ⟨ho, hk⟩ := checkAddress_cases a s
  · refine .inl ⟨k, s.mem[k]'hn.2, hn, List.getElem?_eq_getElem hn.2, ?_⟩
    simp [memRead, hk, List.getElem?_eq_getElem hn.2]
  · exact .inr ⟨ho, by simp [memRead, hk]⟩

/-- `value_of` answers the value the parameter has, or raises OutOfBoundsAddress for a Position (40_engine.md R114). -/
theorem valueOf_cases (p : Param) (s : State) :
    (∃ v, Reads s p v ∧ valueOf p s = .ok v) ∨
      (∃ a, p = .position a ∧ OutOfRange s a ∧ valueOf p s = .error (.outOfBoundsAddress a)) := by
  cases p with
  | immediate v => exact .inl ⟨v, rfl, rfl⟩
  | position a =>
    obtain ⟨k, v, ⟨rfl, hk⟩, hv, hr⟩ | ⟨ho, hr⟩ := memRead_cases a s
    · exact .inl ⟨v, by simpa [Reads, Param.valueIn] using hv, hr⟩
    · exact .inr ⟨a, rfl, ho, hr⟩

theorem valueOf_reads {p : Param} {v : Int} (h : Reads s p v) : valueOf p s = .ok v := by
  obtain ⟨w, hw, hr⟩ | ⟨a, rfl, ho, -⟩ := valueOf_cases p s
  · rw [Reads, hw] at h; cases h; exact hr
  · simp only [Reads, Param.valueIn] at h
    split at h
    · cases h
    · obtain ⟨hlt, -⟩ := List.getElem?_eq_some_iff.1 h
      rcases ho with ho | ho <;> omega

theorem valueOf_outOfRange {a : Int} (h : OutOfRange s a) :
    valueOf (.position a) s = .error (.outOfBoundsAddress a) := by
  simp [valueOf, memRead, checkAddress_outOfRange h]

theorem addrOf_namesCell {d : Int} {k : Nat} (h : NamesCell s d k) : addrOf d s = .ok k := by
  rw [h.1]; exact checkAddress_inRange h.2

theorem addrOf_outOfRange {d : Int} (h : OutOfRange s d) : addrOf d s = .error (.outOfBoundsAddress d) :=
  checkAddress_outOfRange h

/-- A value read in a state whose memory is well formed, from a well-formed parameter, fits a word. -/
theorem reads_fits {p : Param} {v : Int} (hm : Memory.wf s.config.wordBits s.mem)
    (hp : FitsWord s.config.wordBits p.cell) (h : Reads s p v) : FitsWord s.config.wordBits v := by
  cases p with
  | immediate w => simp only [Reads, Param.valueIn, Option.some.injEq] at h; exact h ▸ hp
  | position a =>
    simp only [Reads, Param.valueIn] at h
    split at h
    · cases h
    · exact wf_getElem? hm h

/-! ## The result rule -/

theorem fit_of_fits {c : Config} {r : Int} (h : FitsWord c.wordBits r) : fit c r = .ok r := if_pos h

theorem fit_of_overflow {c : Config} {r : Int} (h : ¬ FitsWord c.wordBits r) (hp : c.overflowPolicy = .fault) :
    fit c r = .error .arithmeticOverflow := by simp only [fit, if_neg h, hp]

theorem fit_of_wrap {c : Config} {r : Int} (h : ¬ FitsWord c.wordBits r) (hp : c.overflowPolicy = .wrap) :
    fit c r = .ok (wrapToWord c.wordBits r) := by simp only [fit, if_neg h, hp]

/-- A wrapped result lies in the word range (R120). -/
theorem wrapToWord_fits {bits : Nat} (h : 1 ≤ bits) (r : Int) : FitsWord bits (wrapToWord bits r) := by
  obtain ⟨b, rfl⟩ := Nat.exists_eq_add_of_le' h
  have hp : (0 : Int) < ((2 ^ b : Nat) : Int) := by positivity
  have he : ((2 ^ (b + 1) : Nat) : Int) = 2 * ((2 ^ b : Nat) : Int) := by push_cast; ring
  have h1 := Int.emod_nonneg (r - wmin (b + 1)) (b := ((2 ^ (b + 1) : Nat) : Int)) (by omega)
  have h2 := Int.emod_lt_of_pos (r - wmin (b + 1)) (b := ((2 ^ (b + 1) : Nat) : Int)) (by omega)
  simp only [FitsWord, wrapToWord, wmin, wmax, Nat.add_sub_cancel] at *
  omega

/-- What `fit` answers is a word (R120). -/
theorem fit_fits {c : Config} {r : Int} {v : Int} (hc : 1 ≤ c.wordBits) (h : fit c r = .ok v) :
    FitsWord c.wordBits v := by
  unfold fit at h
  split at h
  · cases h; assumption
  · split at h
    · cases h
    · cases h; exact wrapToWord_fits hc r

/-- `fit` raises nothing but ArithmeticOverflow, under the policy fault (R120). -/
theorem fit_error {c : Config} {x : Int} {r : Raise} (h : fit c x = .error r) :
    r = .arithmeticOverflow ∧ ¬ FitsWord c.wordBits x ∧ c.overflowPolicy = .fault := by
  unfold fit at h
  split at h
  · cases h
  · split at h
    · cases h; exact ⟨rfl, ‹_›, ‹_›⟩
    · cases h

/-- 0 and 1 fit a word of at least two bits. -/
theorem fits_bit {bits : Nat} (h : 2 ≤ bits) (b : Prop) [Decidable b] : FitsWord bits (if b then 1 else 0) := by
  have : 2 ≤ 2 ^ (bits - 1) := by
    calc 2 = 2 ^ 1 := rfl
      _ ≤ 2 ^ (bits - 1) := Nat.pow_le_pow_right (by decide) (by omega)
  split <;> constructor <;> simp only [wmin, wmax] <;> omega

theorem aluLt_fits {bits : Nat} (h : 2 ≤ bits) (x y : Int) : FitsWord bits (aluLt x y) := fits_bit h _

theorem aluEq_fits {bits : Nat} (h : 2 ≤ bits) (x y : Int) : FitsWord bits (aluEq x y) := fits_bit h _

/-! ## What an instruction does before it is committed -/

/-- What an instruction is about to commit, or the fault it raises (40_engine.md R114 to R117). -/
def plan (i : Instr) (s : State) : Except Raise (Effects × StepOutcome) :=
  match i with
  | .add s1 s2 dest => storePlan (aluAdd s.config) s1 s2 dest s
  | .mul s1 s2 dest => storePlan (aluMul s.config) s1 s2 dest s
  | .input dest => inputPlan dest s
  | .output src => outputPlan src s
  | .jumpIfTrue cmp target => jumpPlan aluNz cmp target s
  | .jumpIfFalse cmp target => jumpPlan (fun v => !aluNz v) cmp target s
  | .lessThan s1 s2 dest => storePlan (fun x y => .ok (aluLt x y)) s1 s2 dest s
  | .equals s1 s2 dest => storePlan (fun x y => .ok (aluEq x y)) s1 s2 dest s
  | .halt => .ok ({}, .halt)

/-- Every instruction ends by committing its plan or by taking the fault it raises (R118, R119). -/
theorem exec_eq_finish (i : Instr) (s : State) : exec i s = finish s (plan i s) := by cases i <;> rfl

/-- An instruction always answers a next state: its commit, or the entry of the fault it raises (R127). -/
theorem exec_cases (i : Instr) (s : State) :
    (∃ e o, plan i s = .ok (e, o) ∧ exec i s = .next (commit e o s)) ∨
      (∃ r, plan i s = .error r ∧ exec i s = .next (faultEntry r s)) := by
  rw [exec_eq_finish]
  cases h : plan i s with
  | ok p => exact .inl ⟨p.1, p.2, rfl, rfl⟩
  | error r => exact .inr ⟨r, rfl, rfl⟩

/-- The storing shape, said once: it writes the result to the cell the destination names, or raises the first fault in
the order of 60_exceptions.md R208, checks 6, 7 and 10. -/
theorem storePlan_cases (alu : Int → Int → Except Raise Int) (s1 s2 : Param) (d : Int) (s : State) :
    (∃ v1 v2 k r, Reads s s1 v1 ∧ Reads s s2 v2 ∧ NamesCell s d k ∧ alu v1 v2 = .ok r ∧
        storePlan alu s1 s2 d s = .ok ({ write := some (k, r) }, .advance 4)) ∨
      (∃ a, OutOfRange s a ∧ storePlan alu s1 s2 d s = .error (.outOfBoundsAddress a)) ∨
      (∃ v1 v2 k r, Reads s s1 v1 ∧ Reads s s2 v2 ∧ NamesCell s d k ∧ alu v1 v2 = .error r ∧
        storePlan alu s1 s2 d s = .error r) := by
  obtain ⟨v1, h1, e1⟩ | ⟨a, -, ho, e1⟩ := valueOf_cases s1 s
  · obtain ⟨v2, h2, e2⟩ | ⟨a, -, ho, e2⟩ := valueOf_cases s2 s
    · obtain ⟨k, hk, e3⟩ | ⟨ho, e3⟩ := checkAddress_cases d s
      · cases h : alu v1 v2 with
        | ok r => exact .inl ⟨v1, v2, k, r, h1, h2, hk, h, by simp [storePlan, e1, e2, addrOf, e3, h, -bind_pure_comp]⟩
        | error r => exact .inr (.inr ⟨v1, v2, k, r, h1, h2, hk, h, by simp [storePlan, e1, e2, addrOf, e3, h, -bind_pure_comp]⟩)
      · exact .inr (.inl ⟨d, ho, by simp [storePlan, e1, e2, addrOf, e3, -bind_pure_comp]⟩)
    · exact .inr (.inl ⟨a, ho, by simp [storePlan, e1, e2, -bind_pure_comp]⟩)
  · exact .inr (.inl ⟨a, ho, by simp [storePlan, e1, -bind_pure_comp]⟩)

/-- IN, said once (42_io.md R150). -/
theorem inputPlan_cases (d : Int) (s : State) :
    (∃ k v q, NamesCell s d k ∧ s.inq = v :: q ∧
        inputPlan d s = .ok ({ write := some (k, v), pop := true }, .advance 2)) ∨
      (OutOfRange s d ∧ inputPlan d s = .error (.outOfBoundsAddress d)) ∨
      (∃ k, NamesCell s d k ∧ s.inq = [] ∧ inputPlan d s = .error .inputExhausted) := by
  obtain ⟨k, hk, e⟩ | ⟨ho, e⟩ := checkAddress_cases d s
  · cases hq : s.inq with
    | nil => exact .inr (.inr ⟨k, hk, rfl, by simp [inputPlan, addrOf, e, State.inData, hq, -bind_pure_comp]⟩)
    | cons v q => exact .inl ⟨k, v, q, hk, rfl, by simp [inputPlan, addrOf, e, State.inData, hq, -bind_pure_comp]⟩
  · exact .inr (.inl ⟨ho, by simp [inputPlan, addrOf, e, -bind_pure_comp]⟩)

/-- OUT, said once (42_io.md R151). -/
theorem outputPlan_cases (p : Param) (s : State) :
    (∃ v, Reads s p v ∧ outputPlan p s = .ok ({ push := some v }, .advance 2)) ∨
      (∃ a, OutOfRange s a ∧ outputPlan p s = .error (.outOfBoundsAddress a)) := by
  obtain ⟨v, h, e⟩ | ⟨a, -, ho, e⟩ := valueOf_cases p s
  · exact .inl ⟨v, h, by simp [outputPlan, e, -bind_pure_comp]⟩
  · exact .inr ⟨a, ho, by simp [outputPlan, e, -bind_pure_comp]⟩

/-- A jump, said once (43_jumps.md R160 to R162). -/
theorem jumpPlan_cases (taken : Int → Bool) (c p : Param) (s : State) :
    (∃ v1 v2 t, Reads s c v1 ∧ Reads s p v2 ∧ taken v1 = true ∧ NamesCell s v2 t ∧
        jumpPlan taken c p s = .ok ({}, .jump t)) ∨
      (∃ v1 v2, Reads s c v1 ∧ Reads s p v2 ∧ taken v1 = false ∧ jumpPlan taken c p s = .ok ({}, .advance 3)) ∨
      (∃ a, OutOfRange s a ∧ jumpPlan taken c p s = .error (.outOfBoundsAddress a)) := by
  obtain ⟨v1, h1, e1⟩ | ⟨a, -, ho, e1⟩ := valueOf_cases c s
  · obtain ⟨v2, h2, e2⟩ | ⟨a, -, ho, e2⟩ := valueOf_cases p s
    · cases ht : taken v1 with
      | false => exact .inr (.inl ⟨v1, v2, h1, h2, ht, by simp [jumpPlan, e1, e2, ht, -bind_pure_comp]⟩)
      | true =>
        obtain ⟨k, hk, e3⟩ | ⟨ho, e3⟩ := checkAddress_cases v2 s
        · exact .inl ⟨v1, v2, k, h1, h2, ht, hk, by simp [jumpPlan, e1, e2, ht, jumpTarget, e3, -bind_pure_comp]⟩
        · exact .inr (.inr ⟨v2, ho, by simp [jumpPlan, e1, e2, ht, jumpTarget, e3, -bind_pure_comp]⟩)
    · exact .inr (.inr ⟨a, ho, by simp [jumpPlan, e1, e2, -bind_pure_comp]⟩)
  · exact .inr (.inr ⟨a, ho, by simp [jumpPlan, e1, -bind_pure_comp]⟩)

/-! ## The plans by their operands, and the answer of an instruction by its plan -/

theorem exec_of_plan_ok {i : Instr} {e : Effects} {o : StepOutcome} (h : plan i s = .ok (e, o)) :
    exec i s = .next (commit e o s) := by
  rw [exec_eq_finish, h]; rfl

theorem exec_of_plan_error {i : Instr} {r : Raise} (h : plan i s = .error r) : exec i s = .next (faultEntry r s) := by
  rw [exec_eq_finish, h]; rfl

theorem storePlan_of_reads {alu : Int → Int → Except Raise Int} {s1 s2 : Param} {d v1 v2 : Int} {k : Nat}
    (h1 : Reads s s1 v1) (h2 : Reads s s2 v2) (hk : NamesCell s d k) :
    storePlan alu s1 s2 d s =
      match alu v1 v2 with
      | .ok r => .ok ({ write := some (k, r) }, .advance 4)
      | .error r => .error r := by
  cases h : alu v1 v2 <;>
    simp [storePlan, valueOf_reads h1, valueOf_reads h2, addrOf_namesCell hk, h, -bind_pure_comp]

theorem jumpPlan_of_reads {taken : Int → Bool} {c p : Param} {v1 v2 : Int} (h1 : Reads s c v1) (h2 : Reads s p v2) :
    jumpPlan taken c p s =
      if taken v1 then
        match jumpTarget v2 s with
        | .ok t => .ok ({}, .jump t)
        | .error r => .error r
      else .ok ({}, .advance 3) := by
  cases ht : taken v1 <;> cases h : jumpTarget v2 s <;>
    simp [jumpPlan, valueOf_reads h1, valueOf_reads h2, ht, h, -bind_pure_comp]

/-- Everything an instruction that raises no fault commits (41_arithmetic.md to 45_halt.md): one write of a word and an
advance of 4; IN's write, pop and advance of 2; OUT's value and advance of 2; a jump taken to its target or, not
taken, an advance of 3; or HALT. -/
theorem plan_ok_cases {i : Instr} {e : Effects} {o : StepOutcome} (h : plan i s = .ok (e, o)) :
    (∃ d k v, i.dest = some d ∧ NamesCell s d k ∧ i.width = 4 ∧ e = { write := some (k, v) } ∧ o = .advance 4 ∧
        (s.config.Valid → FitsWord s.config.wordBits v)) ∨
      (∃ d k v q, i = .input d ∧ NamesCell s d k ∧ s.inq = v :: q ∧ e = { write := some (k, v), pop := true } ∧
        o = .advance 2) ∨
      (∃ p v, i = .output p ∧ Reads s p v ∧ e = { push := some v } ∧ o = .advance 2) ∨
      (∃ c p v1 v2, (i = .jumpIfTrue c p ∨ i = .jumpIfFalse c p) ∧ Reads s c v1 ∧ Reads s p v2 ∧ e = {} ∧
        ((∀ q, ¬ JumpTaken s i q) ∧ o = .advance 3 ∨ ∃ t, NamesCell s v2 t ∧ o = .jump t ∧ JumpTaken s i p)) ∨
      (i = .halt ∧ e = {} ∧ o = .halt) := by
  have store : ∀ (alu : Int → Int → Except Raise Int) (s1 s2 : Param) (d : Int),
      plan i s = storePlan alu s1 s2 d s → i.dest = some d → i.width = 4 →
      (∀ x y v, s.config.Valid → alu x y = .ok v → FitsWord s.config.wordBits v) →
      ∃ d k v, i.dest = some d ∧ NamesCell s d k ∧ i.width = 4 ∧ e = { write := some (k, v) } ∧ o = .advance 4 ∧
        (s.config.Valid → FitsWord s.config.wordBits v) := by
    intro alu s1 s2 d hp hd hw hf
    rw [hp] at h
    obtain ⟨v1, v2, k, r, -, -, hk, ha, e1⟩ | ⟨a, -, e1⟩ | ⟨v1, v2, k, r, -, -, -, -, e1⟩ :=
      storePlan_cases alu s1 s2 d s <;> rw [e1] at h <;> cases h
    exact ⟨d, k, r, hd, hk, hw, rfl, rfl, fun hv => hf _ _ _ hv ha⟩
  cases i with
  | add s1 s2 d => exact .inl (store _ _ _ _ rfl rfl rfl fun _ _ _ hv h => fit_fits (by have := hv.1; omega) h)
  | mul s1 s2 d => exact .inl (store _ _ _ _ rfl rfl rfl fun _ _ _ hv h => fit_fits (by have := hv.1; omega) h)
  | lessThan s1 s2 d =>
    exact .inl (store _ _ _ _ rfl rfl rfl fun _ _ _ hv h => by cases h; exact aluLt_fits (by have := hv.1; omega) _ _)
  | equals s1 s2 d =>
    exact .inl (store _ _ _ _ rfl rfl rfl fun _ _ _ hv h => by cases h; exact aluEq_fits (by have := hv.1; omega) _ _)
  | input d =>
    rw [plan] at h
    obtain ⟨k, v, q, hk, hq, e1⟩ | ⟨-, e1⟩ | ⟨_, _, _, e1⟩ := inputPlan_cases d s <;> rw [e1] at h <;> cases h
    exact .inr (.inl ⟨d, k, v, q, rfl, hk, hq, rfl, rfl⟩)
  | output p =>
    rw [plan] at h
    obtain ⟨v, hv, e1⟩ | ⟨_, _, e1⟩ := outputPlan_cases p s <;> rw [e1] at h <;> cases h
    exact .inr (.inr (.inl ⟨p, v, rfl, hv, rfl, rfl⟩))
  | jumpIfTrue c p =>
    rw [plan] at h
    obtain ⟨v1, v2, t, h1, h2, ht, hk, e1⟩ | ⟨v1, v2, h1, h2, ht, e1⟩ | ⟨_, _, e1⟩ :=
      jumpPlan_cases aluNz c p s <;> rw [e1] at h <;> cases h
    · exact .inr (.inr (.inr (.inl ⟨c, p, v1, v2, .inl rfl, h1, h2, rfl,
        .inr ⟨t, hk, rfl, c, v1, h1, .inl ⟨rfl, by simpa [aluNz] using ht⟩⟩⟩)))
    · refine .inr (.inr (.inr (.inl ⟨c, p, v1, v2, .inl rfl, h1, h2, rfl, .inl ⟨fun q hq => ?_, rfl⟩⟩)))
      obtain ⟨_, v, hv, ⟨hi, hc⟩ | ⟨hi, hc⟩⟩ := hq <;> cases hi
      cases h1.symm.trans hv
      simp [aluNz, hc] at ht
  | jumpIfFalse c p =>
    rw [plan] at h
    obtain ⟨v1, v2, t, h1, h2, ht, hk, e1⟩ | ⟨v1, v2, h1, h2, ht, e1⟩ | ⟨_, _, e1⟩ :=
      jumpPlan_cases (fun v => !aluNz v) c p s <;> rw [e1] at h <;> cases h
    · exact .inr (.inr (.inr (.inl ⟨c, p, v1, v2, .inr rfl, h1, h2, rfl,
        .inr ⟨t, hk, rfl, c, v1, h1, .inr ⟨rfl, by simpa [aluNz] using ht⟩⟩⟩)))
    · refine .inr (.inr (.inr (.inl ⟨c, p, v1, v2, .inr rfl, h1, h2, rfl, .inl ⟨fun q hq => ?_, rfl⟩⟩)))
      obtain ⟨_, v, hv, ⟨hi, hc⟩ | ⟨hi, hc⟩⟩ := hq <;> cases hi
      cases h1.symm.trans hv
      simp [aluNz, hc] at ht
  | halt => cases h; exact .inr (.inr (.inr (.inr ⟨rfl, rfl, rfl⟩)))

end Sys2Proof.Machine
end

