-- ==== Sys2Proof/Laws/PerInstr.lean ====
section
/-! SUPPORT. Statements made instruction by instruction, about the instruction as syntax. -/

/-- The encoding of an instruction is one cell per unit of its width, and its word is a number below 1109, the largest
legal word being 1108 (30_encoding.md R85, R88, R95). -/
def Sys2Proof.Laws.Encoding.Statement (i : Sys2Proof.Instr) : Prop :=
  (Sys2Proof.encode i).length = i.width ∧ Sys2Proof.encodeWord i < 1109

namespace Sys2Proof.Laws.Encoding

/-- A mode digit is 0 or 1 (30_encoding.md R86). -/
theorem mode_le_one (p : Param) : p.mode ≤ 1 := by cases p <;> simp [Param.mode]

theorem add (s1 s2 : Param) (dest : Int) : Statement (.add s1 s2 dest) := by
  have h1 := mode_le_one s1
  have h2 := mode_le_one s2
  exact ⟨rfl, by simp only [encodeWord, Instr.opcode, Opcode.number, Instr.modes]; omega⟩

theorem mul (s1 s2 : Param) (dest : Int) : Statement (.mul s1 s2 dest) := by
  have h1 := mode_le_one s1
  have h2 := mode_le_one s2
  exact ⟨rfl, by simp only [encodeWord, Instr.opcode, Opcode.number, Instr.modes]; omega⟩

theorem input (dest : Int) : Statement (.input dest) :=
  ⟨rfl, by simp [encodeWord, Instr.opcode, Opcode.number, Instr.modes]⟩

theorem output (src : Param) : Statement (.output src) := by
  have h1 := mode_le_one src
  exact ⟨rfl, by simp only [encodeWord, Instr.opcode, Opcode.number, Instr.modes]; omega⟩

theorem jumpIfTrue (cmp target : Param) : Statement (.jumpIfTrue cmp target) := by
  have h1 := mode_le_one cmp
  have h2 := mode_le_one target
  exact ⟨rfl, by simp only [encodeWord, Instr.opcode, Opcode.number, Instr.modes]; omega⟩

theorem jumpIfFalse (cmp target : Param) : Statement (.jumpIfFalse cmp target) := by
  have h1 := mode_le_one cmp
  have h2 := mode_le_one target
  exact ⟨rfl, by simp only [encodeWord, Instr.opcode, Opcode.number, Instr.modes]; omega⟩

theorem lessThan (s1 s2 : Param) (dest : Int) : Statement (.lessThan s1 s2 dest) := by
  have h1 := mode_le_one s1
  have h2 := mode_le_one s2
  exact ⟨rfl, by simp only [encodeWord, Instr.opcode, Opcode.number, Instr.modes]; omega⟩

theorem equals (s1 s2 : Param) (dest : Int) : Statement (.equals s1 s2 dest) := by
  have h1 := mode_le_one s1
  have h2 := mode_le_one s2
  exact ⟨rfl, by simp only [encodeWord, Instr.opcode, Opcode.number, Instr.modes]; omega⟩

theorem halt : Statement .halt := ⟨rfl, by decide⟩

end Sys2Proof.Laws.Encoding
end

