-- ==== Sys2Proof/Laws/Step.lean ====
section
/-! SUPPORT. A step inverted once: not enabled, a rejected decode, a commit, or a fault of the decoded instruction. -/

namespace Sys2Proof.Machine

theorem stepEnabled_iff (s : State) : s.stepEnabled = true ↔ s.runState = .running ∧ s.stepEnable = true := by
  simp [State.stepEnabled]

theorem fetchDecode_ok {s : State} {i : Instr} : fetchDecode s = .ok i ↔ decode (s.mem.drop s.ip) = .ok i := by
  unfold fetchDecode
  split <;> simp_all

theorem fetchDecode_error {s : State} {r : Raise} (h : fetchDecode s = .error r) :
    ∃ j, decode (s.mem.drop s.ip) = .error j ∧ r = .ofReject s.ip j := by
  unfold fetchDecode at h
  split at h
  · cases h
  · cases h; exact ⟨_, ‹_›, rfl⟩

/-- Everything one step can do (40_engine.md R110, R111). -/
theorem step_cases (s : State) :
    (s.stepEnabled = false ∧ step s = .next s) ∨
      (s.stepEnabled = true ∧ ∃ j, decode (s.mem.drop s.ip) = .error j ∧
        step s = .next (emitTrace s (faultEntry (.ofReject s.ip j) s))) ∨
      (s.stepEnabled = true ∧ ∃ i e o, decode (s.mem.drop s.ip) = .ok i ∧ plan i s = .ok (e, o) ∧
        step s = .next (emitTrace s (commit e o s))) ∨
      (s.stepEnabled = true ∧ ∃ i r, decode (s.mem.drop s.ip) = .ok i ∧ plan i s = .error r ∧
        step s = .next (emitTrace s (faultEntry r s))) := by
  cases he : s.stepEnabled with
  | false => exact .inl ⟨rfl, by simp [step, engineStep, he]⟩
  | true =>
    refine .inr ?_
    cases hf : fetchDecode s with
    | error r =>
      obtain ⟨j, hj, rfl⟩ := fetchDecode_error hf
      exact .inl ⟨rfl, j, hj, by simp [step, engineStep, he, hf, traced]⟩
    | ok i =>
      have hi := fetchDecode_ok.1 hf
      obtain ⟨e, o, hp, hx⟩ | ⟨r, hp, hx⟩ := exec_cases i s
      · exact .inr (.inl ⟨rfl, i, e, o, hi, hp, by simp [step, engineStep, he, hf, hx, traced]⟩)
      · exact .inr (.inr ⟨rfl, i, r, hi, hp, by simp [step, engineStep, he, hf, hx, traced]⟩)

end Sys2Proof.Machine
end

