-- ==== Sys2Proof/Tests/Slice0.lean ====
section
/-! SUPPORT. The model's own tests. Expected results are those of spec/95_test_vectors.md (the id stands before each) or
are written out from the rule named; the witness theorems show that the hypotheses of each obligation can be met. -/

namespace Sys2Proof.Tests

open Sys2Proof Sys2Proof.Machine

/-- A run started on an image with an input sequence (70_reset_and_hazards.md R230, R234). -/
def boot (image inputs : List Int) : State := { State.reset with mem := image, inq := inputs }

/-- The same run under OVERFLOW_POLICY = wrap. -/
def bootWrap (image : List Int) : State :=
  { State.reset with mem := image, config := { Config.default with overflowPolicy := .wrap } }

/-- A part of the state after one step. -/
def after {α : Type} (s : State) (f : State → α) : Option α :=
  match step s with
  | .next t => some (f t)
  | .fault _ => none
  | .refused _ => none

/-! ## Well-formedness: each check refuses an ill-formed term -/

theorem test_wellFormed_ok : Instr.WellFormed Config.default (.add (.position (-1)) (.immediate 9223372036854775807) 9) := by
  decide

theorem test_illFormed_position :
    ¬ Instr.WellFormed Config.default (.add (.position 9223372036854775808) (.immediate 0) 0) := by decide

theorem test_illFormed_immediate :
    ¬ Instr.WellFormed Config.default (.output (.immediate (-9223372036854775809))) := by decide

theorem test_illFormed_destination : ¬ Instr.WellFormed Config.default (.input 9223372036854775808) := by decide

theorem test_illFormed_at_16_bits :
    ¬ Instr.WellFormed { Config.default with wordBits := 16 } (.jumpIfTrue (.immediate 1) (.position 32768)) := by decide

/-! ## Decoding: every constructor from a word written out digit by digit (30_encoding.md R81, R84, R95) -/

/-- DEC-1: `0 0 0 01`. -/
theorem test_decode_add : decode [1, 5, 6, 7] = .ok (.add (.position 5) (.position 6) 7) := by decide
/-- DEC-2: `0 1 0 02`, M1 = 0 and M2 = 1. -/
theorem test_decode_mul : decode [1002, 4, 3, 4, 33] = .ok (.mul (.position 4) (.immediate 3) 4) := by decide
/-- DEC-3: `0 1 1 01`. -/
theorem test_decode_add_immediate : decode [1101, -5, 3, 5] = .ok (.add (.immediate (-5)) (.immediate 3) 5) := by decide
/-- DEC-4. -/
theorem test_decode_input : decode [3, 11] = .ok (.input 11) := by decide
/-- DEC-5: `1 04`. -/
theorem test_decode_output : decode [104, -7] = .ok (.output (.immediate (-7))) := by decide
/-- DEC-6: `1 1 05`. -/
theorem test_decode_jumpIfTrue : decode [1105, 1, 4] = .ok (.jumpIfTrue (.immediate 1) (.immediate 4)) := by decide
/-- M1 = 1 alone, so that the order of the two mode digits shows: `0 1 05`. -/
theorem test_decode_mode_order : decode [105, 0, 7] = .ok (.jumpIfTrue (.immediate 0) (.position 7)) := by decide
/-- DEC-7: `1 0 06`. -/
theorem test_decode_jumpIfFalse : decode [1006, 20, 16] = .ok (.jumpIfFalse (.position 20) (.immediate 16)) := by decide
/-- DEC-8. -/
theorem test_decode_lessThan : decode [1107, 3, 5, 5] = .ok (.lessThan (.immediate 3) (.immediate 5) 5) := by decide
/-- DEC-9. -/
theorem test_decode_equals : decode [1108, 5, 6, 5] = .ok (.equals (.immediate 5) (.immediate 6) 5) := by decide
/-- DEC-10: no operand cell is needed. -/
theorem test_decode_halt : decode [99] = .ok .halt := by decide

/-- DEC-16: OP 0 is checked before the mode digit 3. -/
theorem test_reject_opcode_first : decode [300, 0, 0, 0] = .error (.unknownOpcode 300) := by decide
/-- DEC-18: negative, not HALT under any `mod`. -/
theorem test_reject_negative : decode [-99] = .error (.unknownOpcode (-99)) := by decide
/-- DEC-19: the mode digit is checked before the operand cells. -/
theorem test_reject_mode_before_cells : decode [201] = .error (.illegalMode 201) := by decide
/-- DEC-20: M3 = 2. -/
theorem test_reject_third_mode : decode [20001, 0, 0, 0] = .error (.illegalMode 20001) := by decide
/-- DEC-21: HI = 1. -/
theorem test_reject_high_digit : decode [100001, 0, 0, 0] = .error (.illegalMode 100001) := by decide
/-- DEC-22 and DEC-25: a digit above the parameters of the opcode. -/
theorem test_reject_digit_above :
    decode [1003, 0, 0, 0] = .error (.illegalMode 1003) ∧ decode [10005, 0, 0, 0] = .error (.illegalMode 10005) := by
  decide
/-- DEC-26. -/
theorem test_reject_halt_digit : decode [199] = .error (.illegalMode 199) := by decide
/-- ADD-13: a missing operand cell is reported before the Immediate destination. -/
theorem test_reject_cell_before_destination : decode [10001, 0, 0] = .error (.missingCell 3) := by decide
/-- DEC-30 and DEC-32. -/
theorem test_reject_destination :
    decode [103, 0] = .error .invalidWriteTarget ∧ decode [11108, 1, 1, 0] = .error .invalidWriteTarget := by decide

/-- 30_encoding.md R95, the table's row 1002, read backwards. -/
theorem test_encode_mul : encode (.mul (.position 4) (.immediate 3) 4) = [1002, 4, 3, 4] := by decide

/-! ## One step of each instruction -/

/-- ADD-5: the destination is ADD's own word. -/
theorem test_add_own_word :
    after (boot [1101, 98, 1, 0, 99] []) (fun t => (t.mem, t.ip, t.tick)) = some ([99, 98, 1, 0, 99], 4, 1) := by decide
/-- ADD-3w: `WMAX + 1` wraps to `WMIN`. -/
theorem test_add_wraps :
    after (bootWrap [1101, 9223372036854775807, 1, 0]) (fun t => t.mem.head?) = some (some (-9223372036854775808)) := by
  decide
/-- MUL-2: a Position and an Immediate source, the first source also the destination. -/
theorem test_mul_modes :
    after (boot [1002, 4, 3, 4, 33] []) (fun t => (t.mem, t.ip)) = some ([1002, 4, 3, 4, 99], 4) := by decide
/-- MUL-7: `2^32 * 2^31` overflows; nothing is written. -/
theorem test_mul_overflow :
    after (boot [1102, 4294967296, 2147483648, 0] []) (fun t => (t.mem, t.ip, t.runState, t.fault)) =
      some ([1102, 4294967296, 2147483648, 0], 0, .faulted, ⟨.arithmeticOverflow, 0, 1102, 0, 0⟩) := by decide
/-- IN-2: IN overwrites its own operand cell. -/
theorem test_input_own_cell :
    after (boot [3, 1, 99] [5]) (fun t => (t.mem, t.inq, t.ip)) = some ([3, 5, 99], [], 2) := by decide
/-- IN-4: the destination's bounds are checked before the empty input. -/
theorem test_input_destination_first :
    after (boot [3, 9, 99] []) (fun t => t.fault) = some ⟨.outOfBoundsAddress, 0, 3, 9, 0⟩ := by decide
/-- OUT-3: a Position source that is OUT's own word. -/
theorem test_output_own_word : after (boot [4, 0, 99] []) (fun t => (t.outq, t.ip)) = some ([4], 2) := by decide
/-- OUT-2: an Immediate source. -/
theorem test_output_immediate : after (boot [104, -7, 99] []) (fun t => t.outq) = some [-7] := by decide
/-- JT-5: a taken jump to a negative target. -/
theorem test_jumpIfTrue_negative :
    after (boot [1105, 1, -1, 99] []) (fun t => t.fault) = some ⟨.outOfBoundsAddress, 0, 1105, -1, 0⟩ := by decide
/-- JT-6: not taken, but the Position target is resolved all the same. -/
theorem test_jumpIfTrue_eager :
    after (boot [105, 0, 7, 99] []) (fun t => t.fault) = some ⟨.outOfBoundsAddress, 0, 105, 7, 0⟩ := by decide
/-- JF-5: both operands in Position mode, taken. -/
theorem test_jumpIfFalse_taken : after (boot [6, 4, 5, 99, 0, 3] []) (fun t => t.ip) = some 3 := by decide
/-- JF-3: not taken, and the target's value is not checked. -/
theorem test_jumpIfFalse_not_taken : after (boot [1106, -1, 9, 99] []) (fun t => (t.ip, t.runState)) = some (3, .running) := by
  decide
/-- LT-5: signed at both ends of the word range. -/
theorem test_lessThan_signed :
    after (boot [7, 5, 6, 5, 99, -9223372036854775808, 9223372036854775807] []) (fun t => t.mem[5]?) = some (some 1) := by
  decide
/-- LT-6: equal operands give 0, written over LT's own word. -/
theorem test_lessThan_equal : after (boot [7, 0, 0, 0, 99] []) (fun t => t.mem) = some [0, 0, 0, 0, 99] := by decide
/-- EQ-1: the result overwrites a source. -/
theorem test_equals_source : after (boot [8, 5, 6, 5, 99, 8, 8] []) (fun t => t.mem) = some [8, 5, 6, 5, 99, 1, 8] := by
  decide
/-- EQ-2. -/
theorem test_equals_differ : after (boot [1108, 5, 6, 5, 99, 7] []) (fun t => t.mem[5]?) = some (some 0) := by decide
/-- HALT-1. -/
theorem test_halt :
    after (boot [99] []) (fun t => (t.runState, t.ip, t.tick, t.mem, t.fault)) = some (.halted, 0, 1, [99], .clear) := by
  decide
/-- ENG-1: an empty image. -/
theorem test_empty_memory :
    after (boot [] []) (fun t => (t.runState, t.fault)) = some (.faulted, ⟨.outOfBoundsAddress, 0, 0, 0, 0⟩) := by decide
/-- ADD-12: the Immediate destination is reported before a source out of bounds. -/
theorem test_priority_destination_mode :
    after (boot [10001, 50, 50, 0] []) (fun t => t.fault) = some ⟨.invalidWriteTarget, 0, 10001, 0, 0⟩ := by decide

/-! ## The trace port, a table word, the host -/

/-- 60_exceptions.md R217: the record of ADD-5's step. -/
theorem test_trace_record :
    after { boot [1101, 98, 1, 0, 99] [] with config := { Config.default with tracePort := .present } } (fun t => t.trace) =
      some [⟨0, 0, 1101, .completed⟩] := by decide
/-- A table word runs as the first instruction after reset. -/
theorem test_withFetchWord : after (State.reset.withFetchWord 16 1102) (fun t => (t.mem, t.ip)) = some ([0, 0, 0, 0], 4) := by
  decide
theorem test_decodeTableWord : decodeTableWord 8 4 = some (.output (.position 0)) := by decide
/-- The status port of a machine that has faulted, in the numbers of 10_state.md R24 and 60_exceptions.md R201. -/
theorem test_status : after (boot [199] []) State.status = some ⟨3, 0, 0, 5, 0, 199, 0, 0⟩ := by decide

/-! ## Witnesses: the hypotheses of each obligation can be met, clause by clause -/

/-- Seven cells, one input value, 64-bit words, the policy fault. -/
def sample : State := boot [1101, 2, -1, 6, 99, -9223372036854775808, 9223372036854775807] [42]

/-- The same under the policy wrap. -/
def sampleWrap : State := bootWrap [1101, 2, -1, 6, 99, -9223372036854775808, 9223372036854775807]

theorem witness_DecodedCellsAreTheEncoding : decode [99, 5] = .ok .halt := by decide
theorem witness_IllegalModeExactly :
    ((0 : Int) ≤ 201 ∧ (201 : Int) % 100 = Opcode.add.number ∧ ∃ k < Opcode.add.arity, (2 : Int) ≤ 201 / 10 ^ (k + 2) % 10) ∧
      ((0 : Int) ≤ 199 ∧ (199 : Int) % 100 = Opcode.halt.number ∧ (199 : Int) / 10 ^ (2 + Opcode.halt.arity) ≠ 0) ∧
      ((0 : Int) ≤ 11108 ∧ (11108 : Int) % 100 = Opcode.equals.number ∧
        (11108 : Int) / 10 ^ (2 + Opcode.equals.arity) = 0) := by
  refine ⟨⟨by decide, by decide, 0, by decide, by decide⟩, by decide, by decide⟩
theorem witness_MissingCellRejected :
    (0 : Int) ≤ 1101 ∧ (1101 : Int) % 100 = Opcode.add.number ∧ (∀ k < Opcode.add.arity, (1101 : Int) / 10 ^ (k + 2) % 10 ≤ 1) ∧
      (1101 : Int) / 10 ^ (2 + Opcode.add.arity) = 0 ∧ ([5, 6] : List Int).length < Opcode.add.arity := by decide
theorem witness_ImmediateDestinationRejected :
    ((10001 : Int) % 100 = Opcode.add.number ∧ (∀ k < Opcode.add.arity, (10001 : Int) / 10 ^ (k + 2) % 10 ≤ 1) ∧
        (10001 : Int) / 10 ^ (2 + Opcode.add.arity) = 0 ∧ Opcode.add.arity ≤ ([5, 6, 7] : List Int).length ∧
        Opcode.add.destination = some 3 ∧ (10001 : Int) / 10 ^ (3 + 1) % 10 = 1) ∧
      ((1108 : Int) % 100 = Opcode.equals.number ∧ (∀ k < Opcode.equals.arity, (1108 : Int) / 10 ^ (k + 2) % 10 ≤ 1) ∧
        (1108 : Int) / 10 ^ (2 + Opcode.equals.arity) = 0 ∧ (1108 : Int) / 10 ^ (3 + 1) % 10 ≠ 1) := by decide
theorem witness_DecodedInstrWellFormed :
    Memory.wf Config.default.wordBits [104, 9223372036854775807] ∧
      decode [104, 9223372036854775807] = .ok (.output (.immediate 9223372036854775807)) := by decide
theorem witness_MemReadRule :
    ¬ ((6 : Int) < 0 ∨ (6 : Int) ≥ (sample.mem.length : Int)) ∧ ((7 : Int) < 0 ∨ (7 : Int) ≥ (sample.mem.length : Int)) ∧
      ((-1 : Int) < 0 ∨ (-1 : Int) ≥ (sample.mem.length : Int)) := by decide
theorem witness_WriteThenRead : 6 < sample.mem.length ∧ (7 : Int) ≠ ((6 : Nat) : Int) := by decide
theorem witness_OperandRule :
    sample.mem[6]? = some 9223372036854775807 ∧ ((-1 : Int) < 0 ∨ (sample.mem.length : Int) ≤ -1) ∧
      ((7 : Int) < 0 ∨ (sample.mem.length : Int) ≤ 7) := by decide
theorem witness_FitRule :
    Config.default.Valid ∧ (wmin 64 ≤ 9223372036854775807 ∧ (9223372036854775807 : Int) ≤ wmax 64) ∧
      ¬ (wmin 64 ≤ 9223372036854775808 ∧ (9223372036854775808 : Int) ≤ wmax 64) ∧ sampleWrap.config.overflowPolicy = .wrap ∧
      FitsWord 64 (-9223372036854775808) := by decide
theorem witness_AddRule :
    Config.default.Valid ∧ FitsWord Config.default.wordBits (-9223372036854775808) ∧ FitsWord Config.default.wordBits (-1) ∧
      Config.default.overflowPolicy = .fault ∧ Config.default.wordBits = 64 ∧ sampleWrap.config.wordBits = 64 ∧
      sampleWrap.config.overflowPolicy = .wrap := by decide
theorem witness_MulRule :
    Config.default.Valid ∧ FitsWord Config.default.wordBits (-9223372036854775808) ∧
      Config.default.overflowPolicy = .fault ∧ sampleWrap.config.Valid ∧ sampleWrap.config.overflowPolicy = .wrap := by
  decide
theorem witness_ComparisonRule :
    (-1 : Int) < 0 ∧ (0 : Int) ≤ 0 ∧ (5 : Int) ≠ 6 ∧ Config.Valid { Config.default with wordBits := 16 } := by decide
theorem witness_AddCompletes :
    Reads sample (.position 6) 9223372036854775807 ∧ Reads sample (.immediate (-1)) (-1) ∧ NamesCell sample 0 0 ∧
      FitsWord sample.config.wordBits (9223372036854775807 + -1) := by decide
theorem witness_MulCompletes :
    Reads sample (.position 5) (-9223372036854775808) ∧ Reads sample (.immediate 1) 1 ∧ NamesCell sample 6 6 ∧
      FitsWord sample.config.wordBits (-9223372036854775808 * 1) := by decide
theorem witness_ArithmeticWraps :
    sampleWrap.config.Valid ∧ sampleWrap.config.overflowPolicy = .wrap ∧ Reads sampleWrap (.position 6) 9223372036854775807 ∧
      Reads sampleWrap (.immediate 1) 1 ∧ NamesCell sampleWrap 6 6 ∧
      ¬ FitsWord sampleWrap.config.wordBits (9223372036854775807 + 1) := by decide
theorem witness_ComparesComplete :
    Reads sample (.position 1) 2 ∧ Reads sample (.immediate (-1)) (-1) ∧ NamesCell sample 6 6 := by decide
theorem witness_InputCompletes : NamesCell sample 6 6 ∧ sample.inq = 42 :: [] := by decide
theorem witness_OutputCompletes : Reads sample (.position 0) 1101 ∧ Reads sample (.immediate (-7)) (-7) := by decide
theorem witness_JumpIfTrueCompletes :
    (Reads sample (.position 2) (-1) ∧ Reads sample (.immediate 6) 6 ∧ (-1 : Int) ≠ 0 ∧ NamesCell sample 6 6) ∧
      Reads sample (.immediate 0) 0 ∧ Reads sample (.position 2) (-1) := by decide
theorem witness_JumpIfFalseCompletes :
    (Reads sample (.immediate 0) 0 ∧ Reads sample (.immediate 6) 6 ∧ NamesCell sample 6 6) ∧
      Reads sample (.position 2) (-1) ∧ (-1 : Int) ≠ 0 ∧ Reads sample (.position 6) 9223372036854775807 := by decide
theorem witness_SourceOutOfRangeFaults :
    (Instr.sources (.add (.position 7) (.position 0) 0) = [] ++ .position 7 :: [.position 0] ∧ OutOfRange sample 7) ∧
      (Instr.sources (.jumpIfTrue (.immediate 0) (.position (-1))) = [.immediate 0] ++ .position (-1) :: [] ∧
        Reads sample (.immediate 0) 0 ∧ OutOfRange sample (-1)) := by decide
theorem witness_DestinationOutOfRangeFaults :
    (Instr.dest (.input 7) = some 7 ∧ Instr.sources (.input 7) = [] ∧ OutOfRange sample 7) ∧
      (Instr.dest (.equals (.position 6) (.immediate 0) (-1)) = some (-1) ∧
        Reads sample (.position 6) 9223372036854775807 ∧ Reads sample (.immediate 0) 0 ∧ OutOfRange sample (-1)) := by decide
theorem witness_EmptyInputFaults : NamesCell (boot [3, 0] []) 1 1 ∧ (boot [3, 0] []).inq = [] := by decide
theorem witness_TakenJumpOutOfRangeFaults :
    Reads sample (.immediate 1) 1 ∧ (1 : Int) ≠ 0 ∧ Reads sample (.immediate 0) 0 ∧ Reads sample (.immediate 7) 7 ∧
      OutOfRange sample 7 := by decide
theorem witness_OverflowFaults :
    sample.config.overflowPolicy = .fault ∧ Reads sample (.position 5) (-9223372036854775808) ∧
      Reads sample (.immediate (-1)) (-1) ∧ NamesCell sample 6 6 ∧
      ¬ FitsWord sample.config.wordBits (-9223372036854775808 + -1) ∧
      ¬ FitsWord sample.config.wordBits (-9223372036854775808 * -1) := by decide
theorem witness_StoringFrame :
    (∃ t, exec (.add (.position 1) (.immediate 3) 6) sample = .next t) ∧ addrOf 6 sample = .ok 6 ∧ (0 : Int) ≠ ((6 : Nat) : Int) ∧
      addrOf 7 sample = .error (.outOfBoundsAddress 7) := by
  exact ⟨⟨_, rfl⟩, by decide, by decide, by decide⟩
theorem witness_InputFrame :
    (∃ t, exec (.input 6) sample = .next t) ∧ addrOf 6 sample = .ok 6 ∧
      (∃ t, exec (.input (-1)) sample = .next t) ∧ addrOf (-1) sample = .error (.outOfBoundsAddress (-1)) := by
  exact ⟨⟨_, rfl⟩, by decide, ⟨_, rfl⟩, by decide⟩
theorem witness_OutputFrame : ∃ t, exec (.output (.position 0)) sample = .next t := ⟨_, rfl⟩
theorem witness_JumpFrame : ∃ t, exec (.jumpIfTrue (.immediate 1) (.immediate 6)) sample = .next t := ⟨_, rfl⟩
theorem witness_HaltFrame : ∃ t, exec .halt sample = .next t := ⟨_, rfl⟩
theorem witness_StepRunsDecodedInstruction :
    sample.runState = .running ∧ sample.stepEnable = true ∧
      decode (sample.mem.drop sample.ip) = .ok (.add (.immediate 2) (.immediate (-1)) 6) ∧
      sample.config.tracePort = .absent := by decide
theorem witness_StepFaultsOnRejectedDecode :
    (boot [] []).runState = .running ∧ (boot [] []).stepEnable = true ∧
      decode ((boot [] []).mem.drop (boot [] []).ip) = .error (.missingCell 0) ∧
      decode ((boot [1, 0, 0] []).mem.drop 0) = .error (.missingCell 3) ∧
      decode ((boot [98] []).mem.drop 0) = .error (.unknownOpcode 98) ∧
      decode ((boot [199] []).mem.drop 0) = .error (.illegalMode 199) ∧
      decode ((boot [103, 0] []).mem.drop 0) = .error .invalidWriteTarget := by decide
theorem witness_StepNotEnabledKeepsState :
    (State.powerOn Config.default).runState ≠ .running ∧ { sample with stepEnable := false }.stepEnable = false := by decide
theorem witness_EndedRunStaysEnded :
    { sample with runState := .halted }.runState = .halted ∧ { sample with runState := .faulted }.runState = .faulted := by
  decide
theorem witness_StepAlwaysAnswersNext : sample.stepEnabled = true := by decide
theorem witness_FaultedStepCommitsNothing :
    (boot [1, 7, 0, 0] []).stepEnabled = true ∧
      ∃ t, step (boot [1, 7, 0, 0] []) = .next t ∧ t.runState = .faulted ∧ t.fault.cause = .outOfBoundsAddress :=
  ⟨by decide, _, rfl, rfl, rfl⟩
theorem witness_OnlyHaltHalts :
    (boot [99] []).stepEnabled = true ∧ ∃ t, step (boot [99] []) = .next t ∧ t.runState = .halted :=
  ⟨by decide, _, rfl, rfl⟩
theorem witness_NextIpRule :
    (decode (sample.mem.drop sample.ip) = .ok (.add (.immediate 2) (.immediate (-1)) 6) ∧
      (∀ target, ¬ JumpTaken sample (.add (.immediate 2) (.immediate (-1)) 6) target) ∧
      ∃ t, step sample = .next t ∧ t.runState ≠ .faulted) ∧
      (decode (boot [1105, 1, 2] []).mem = .ok (.jumpIfTrue (.immediate 1) (.immediate 2)) ∧
        JumpTaken (boot [1105, 1, 2] []) (.jumpIfTrue (.immediate 1) (.immediate 2)) (.immediate 2) ∧
        ∃ t, step (boot [1105, 1, 2] []) = .next t ∧ t.runState ≠ .faulted) ∧
      (decode (boot [1106, 0, 0] []).mem = .ok (.jumpIfFalse (.immediate 0) (.immediate 0)) ∧
        JumpTaken (boot [1106, 0, 0] []) (.jumpIfFalse (.immediate 0) (.immediate 0)) (.immediate 0) ∧
        ∃ t, step (boot [1106, 0, 0] []) = .next t ∧ t.runState ≠ .faulted) ∧
      (decode (boot [1105, 0, 9] []).mem = .ok (.jumpIfTrue (.immediate 0) (.immediate 9)) ∧
        (∀ target, ¬ JumpTaken (boot [1105, 0, 9] []) (.jumpIfTrue (.immediate 0) (.immediate 9)) target) ∧
        ∃ t, step (boot [1105, 0, 9] []) = .next t ∧ t.runState ≠ .faulted) ∧
      decode (boot [99] []).mem = .ok .halt ∧ ∃ t, step (boot [99] []) = .next t ∧ t.runState ≠ .faulted :=
  ⟨⟨by decide, by simp, _, rfl, by decide⟩, ⟨by decide, ⟨.immediate 1, 1, by decide⟩, _, rfl, by decide⟩,
    ⟨by decide, ⟨.immediate 0, 0, by decide⟩, _, rfl, by decide⟩,
    ⟨by decide, by rintro _ ⟨_, _, h, ⟨hi, hc⟩ | ⟨hi, -⟩⟩ <;> cases hi; cases h; exact hc rfl, _, rfl, by decide⟩,
    by decide, _, rfl, by decide⟩
theorem witness_TickCountsCompletedSteps :
    (∃ t, step sample = .next t ∧ t.runState = .running) ∧ ∃ t, step (boot [0] []) = .next t ∧ t.runState = .faulted :=
  ⟨⟨_, rfl, rfl⟩, _, rfl, rfl⟩
theorem witness_OutputOnlyAppended : ∃ t, step (boot [104, -7] []) = .next t ∧ t.outq = [-7] := ⟨_, rfl, rfl⟩
theorem witness_InputOnlyConsumedByIn : ∃ t, step (boot [3, 0] [5, 6]) = .next t ∧ t.inq = [6] := ⟨_, rfl, rfl⟩
theorem witness_MemoryWrittenOnlyAtDestination : ∃ t, step sample = .next t ∧ t.mem ≠ sample.mem :=
  ⟨_, rfl, by decide⟩
theorem witness_MemLenAndConfigFixed : ∃ t, step sample = .next t := ⟨_, rfl⟩
theorem witness_TraceRecordsEachStep :
    (sample.stepEnabled = true ∧ sample.config.tracePort = .absent ∧ ∃ t, step sample = .next t) ∧
      ∃ t, step { sample with config := { sample.config with tracePort := .present } } = .next t :=
  ⟨⟨by decide, by decide, _, rfl⟩, _, rfl⟩
theorem witness_StepDependsOnlyOnItsInputs :
    sample.mem = { sample with tick := 9, outq := [1] }.mem ∧ sample.runState = .running ∧
      ∃ t, step (boot [98] []) = .next t ∧ t.runState = .faulted :=
  ⟨rfl, rfl, _, rfl, rfl⟩
theorem witness_StepKeepsWordsFit :
    sampleWrap.config.Valid ∧ WordsFit sampleWrap ∧ ∃ t, step sampleWrap = .next t := ⟨by decide, by decide, _, rfl⟩
theorem witness_StepKeepsIpInRange : IpInRange sample ∧ ∃ t, step sample = .next t := ⟨by decide, _, rfl⟩
theorem witness_StepKeepsTickInRange :
    TickInRange { sample with tick := 18446744073709551615 } ∧
      ∃ t, step { sample with tick := 18446744073709551615 } = .next t ∧ t.tick = 0 := ⟨by decide, _, rfl, rfl⟩
theorem witness_StepKeepsFaultRecordSound :
    FaultRecordSound sample ∧ (∃ t, step sample = .next t) ∧ ∃ t, step (boot [98] []) = .next t ∧ t.runState = .faulted :=
  ⟨by decide, ⟨_, rfl⟩, _, rfl, rfl⟩
theorem witness_HostMovesKeepSound :
    Sound sample ∧ (∃ t, hostMove (.start [1]) sample = .next t) ∧ Sound (State.powerOn Config.default) ∧
      ∃ t, hostMove (.load [99]) (State.powerOn Config.default) = .next t :=
  ⟨by decide, ⟨_, rfl⟩, by decide, _, rfl⟩
theorem witness_HostSideRule :
    Memory.wf sample.config.wordBits [5, -7] ∧ (State.powerOn Config.default).runState ≠ .running ∧
      sample.runState = .running ∧ ¬ Memory.wf sample.config.wordBits [9223372036854775808] ∧
      { sample with runState := .halted }.runState = .halted := by decide

end Sys2Proof.Tests
end

section
/-! PROOFS. The scope rules (00_scope.md): words stay words, arithmetic under wrap, and what no step writes. -/

namespace Sys2Proof.Machine

variable {s t : State}

/-! ## How a step ends -/

/-- A step that answers `t` left the state alone, took one fault entry, or committed the plan of the decoded instruction
(40_engine.md R110, R118, R119). -/
theorem step_next_cases (h : step s = .next t) :
    t = s ∨ (∃ r, t = emitTrace s (faultEntry r s)) ∨
      ∃ i e o, decode (s.mem.drop s.ip) = .ok i ∧ plan i s = .ok (e, o) ∧ t = emitTrace s (commit e o s) := by
  obtain ⟨-, hs⟩ | ⟨-, j, -, hs⟩ | ⟨-, i, e, o, hi, hp, hs⟩ | ⟨-, i, r, -, -, hs⟩ := step_cases s <;>
    rw [hs] at h <;> cases h
  · exact .inl rfl
  · exact .inr (.inl ⟨_, rfl⟩)
  · exact .inr (.inr ⟨i, e, o, hi, hp, rfl⟩)
  · exact .inr (.inl ⟨r, rfl⟩)

/-! ## Words stay words -/

/-- Cells that hold words decode to an instruction whose operand cells are words (30_encoding.md R90). -/
theorem decode_wellFormed {c : Config} {m : List Int} {i : Instr} (hm : Memory.wf c.wordBits m)
    (h : decode m = .ok i) : i.WellFormed c := by
  obtain ⟨w, ops, op, rfl, -, -, -, ha, -, rfl⟩ := decode_ok_cases h
  intro v hv
  rw [cells_buildInstr ha] at hv
  exact hm v (List.mem_cons_of_mem w (List.mem_of_mem_take hv))

/-- The values an execute stage hands to the commit, the one written and the one output, fit a word. -/
def Effects.ValuesFit (bits : Nat) (e : Effects) : Prop :=
  (∀ k v, e.write = some (k, v) → FitsWord bits v) ∧ ∀ v, e.push = some v → FitsWord bits v

theorem valuesFit_write {bits k : Nat} {v : Int} (p : Bool) (hv : FitsWord bits v) :
    Effects.ValuesFit bits { write := some (k, v), pop := p } :=
  ⟨fun _ _ h => by cases h; exact hv, nofun⟩

theorem valuesFit_push {bits : Nat} {v : Int} (hv : FitsWord bits v) : Effects.ValuesFit bits { push := some v } :=
  ⟨nofun, fun _ h => by cases h; exact hv⟩

theorem valuesFit_none (bits : Nat) : Effects.ValuesFit bits {} := ⟨nofun, nofun⟩

/-- An instruction whose operand cells are words commits only words: the ALU's result, the first input, or the value of a
source (00_scope.md R5, R6, 40_engine.md R118). -/
theorem plan_valuesFit {i : Instr} {e : Effects} {o : StepOutcome} (hc : s.config.Valid) (hs : WordsFit s)
    (hi : i.WellFormed s.config) (h : plan i s = .ok (e, o)) : e.ValuesFit s.config.wordBits := by
  obtain ⟨hmem, hinq, -, -⟩ := hs
  obtain ⟨_, _, _, -, -, -, rfl, -, hv⟩ | ⟨_, _, v, q, -, -, hq, rfl, -⟩ | ⟨p, v, rfl, hv, rfl, -⟩ |
    ⟨_, _, _, _, -, -, -, rfl, -⟩ | ⟨-, rfl, -⟩ := plan_ok_cases h
  · exact valuesFit_write false (hv hc)
  · exact valuesFit_write true (hinq v (hq ▸ List.mem_cons_self))
  · exact valuesFit_push (reads_fits hmem (hi p.cell List.mem_cons_self) hv)
  · exact valuesFit_none _
  · exact valuesFit_none _

/-- A commit of words keeps every cell and queue a list of words (40_engine.md R118). -/
theorem commit_keeps_wordsFit {e : Effects} (o : StepOutcome) (hs : WordsFit s)
    (he : e.ValuesFit s.config.wordBits) : WordsFit (commit e o s) := by
  obtain ⟨hmem, hinq, houtq, hword⟩ := hs
  obtain ⟨hwrite, hpush⟩ := he
  obtain ⟨write, pop, push⟩ := e
  refine ⟨?mem, ?inq, ?outq, hword⟩
  case mem =>
    cases write with
    | none => exact hmem
    | some kv => exact writeCell_keeps_wf hmem (hwrite kv.1 kv.2 rfl)
  case inq =>
    cases pop with
    | false => exact hinq
    | true => exact inPop_keeps_wf hinq
  case outq =>
    cases push with
    | none => exact houtq
    | some v => exact outPush_keeps_wf houtq (hpush v rfl)

/-- A fault entry records the fetched cell, which is a word, and leaves memory and queues (60_exceptions.md R209). -/
theorem faultEntry_keeps_wordsFit (r : Raise) (hs : WordsFit s) : WordsFit (faultEntry r s) := by
  obtain ⟨hmem, hinq, houtq, -⟩ := hs
  exact ⟨hmem, hinq, houtq, fetchedWord_fits hmem⟩

/-- The trace port writes nothing that has to fit a word (60_exceptions.md R217). -/
theorem wordsFit_emitTrace : WordsFit (emitTrace s t) ↔ WordsFit t := Iff.rfl

/-- Settles O51: a fault entry records a cell, and a commit stores only words because the decoded operand cells, the
inputs and every ALU result are words. -/
theorem stepKeepsWordsFit : Obligations.StepKeepsWordsFit := by
  intro s t hc hs h
  obtain rfl | ⟨r, rfl⟩ | ⟨i, e, o, hi, hp, rfl⟩ := step_next_cases h
  · exact hs
  · exact wordsFit_emitTrace.2 (faultEntry_keeps_wordsFit r hs)
  · have hwf : i.WellFormed s.config := decode_wellFormed (fun v hv => hs.1 v (List.mem_of_mem_drop hv)) hi
    exact wordsFit_emitTrace.2 (commit_keeps_wordsFit o hs (plan_valuesFit hc hs hwf hp))

/-! ## Arithmetic under wrap -/

/-- The wrapped result differs from the exact one by a multiple of 2^WORD_BITS (40_engine.md R120). -/
theorem dvd_sub_wrapToWord (bits : Nat) (r : Int) : (2 : Int) ^ bits ∣ r - wrapToWord bits r := by
  have h : r - wrapToWord bits r = (r - wmin bits) - (r - wmin bits) % 2 ^ bits := by
    simp only [wrapToWord]; push_cast; ring
  rw [h]
  exact Int.dvd_self_sub_emod

/-- Under wrap `fit` never raises: it answers a word congruent to the exact result (00_scope.md R6, 40_engine.md R120). -/
theorem fit_wrap_congruent {c : Config} (hc : c.Valid) (hp : c.overflowPolicy = .wrap) (x : Int) :
    ∃ r, FitsWord c.wordBits r ∧ (2 : Int) ^ c.wordBits ∣ x - r ∧ fit c x = .ok r := by
  by_cases hx : FitsWord c.wordBits x
  · exact ⟨x, hx, by simp, fit_of_fits hx⟩
  · have hbits : 1 ≤ c.wordBits := le_trans (by decide) hc.1
    exact ⟨wrapToWord c.wordBits x, wrapToWord_fits hbits x, dvd_sub_wrapToWord _ x, fit_of_wrap hx hp⟩

/-- An instruction of the storing shape whose operands resolve and whose ALU answers `r` writes `r` to the destination's
cell and advances by 4 (40_engine.md R114 to R118). -/
theorem exec_store_of_reads {i : Instr} {alu : Int → Int → Except Raise Int} {s1 s2 : Param} {d v1 v2 r : Int} {k : Nat}
    (hi : plan i s = storePlan alu s1 s2 d s) (h1 : Reads s s1 v1) (h2 : Reads s s2 v2) (hk : NamesCell s d k)
    (hr : alu v1 v2 = .ok r) :
    exec i s =
      .next { s with
        mem := s.mem.set k r
        ip := s.ip + 4
        tick := (s.tick + 1) % 2 ^ s.config.tickBits } := by
  have hp : plan i s = .ok ({ write := some (k, r) }, .advance 4) := by
    rw [hi, storePlan_of_reads h1 h2 hk, hr]
  rw [exec_of_plan_ok hp]
  rfl

/-- Settles O19: under wrap the ALU answers a congruent word for the sum and for the product, and the storing shape
writes it. -/
theorem arithmeticWraps : Obligations.ArithmeticWraps := by
  intro s s1 s2 dest v1 v2 k hc hp h1 h2 hk
  obtain ⟨sum, hsum, hsumDvd, hadd⟩ := fit_wrap_congruent hc hp (v1 + v2)
  obtain ⟨prod, hprod, hprodDvd, hmul⟩ := fit_wrap_congruent hc hp (v1 * v2)
  exact ⟨⟨sum, hsum, hsumDvd, exec_store_of_reads (alu := aluAdd s.config) rfl h1 h2 hk hadd⟩,
    ⟨prod, hprod, hprodDvd, exec_store_of_reads (alu := aluMul s.config) rfl h1 h2 hk hmul⟩⟩

/-! ## What no step writes -/

/-- A commit's write replaces a cell and adds none (20_memory.md R52, R53). -/
@[simp] theorem memAfter_length (e : Effects) (m : List Int) : (e.memAfter m).length = m.length := by
  obtain ⟨write, pop, push⟩ := e
  cases write with
  | none => rfl
  | some kv => exact writeCell_length kv.1 kv.2 m

/-- Settles O48: neither a fault entry nor a commit adds a cell or writes a parameter or step_enable. -/
theorem memLenAndConfigFixed : Obligations.MemLenAndConfigFixed := by
  intro s t h
  obtain rfl | ⟨r, rfl⟩ | ⟨i, e, o, -, -, rfl⟩ := step_next_cases h
  · exact ⟨rfl, rfl, rfl⟩
  · exact ⟨rfl, rfl, rfl⟩
  · exact ⟨memAfter_length e s.mem, rfl, rfl⟩

end Sys2Proof.Machine
end

section
/-! PROOFS. The state's registers (10_state.md): where IP, TICK, the queues and the fault registers can go in one step,
and that an ended run stays ended. -/

namespace Sys2Proof.Machine

variable {s t : State} {i : Instr} {e : Effects} {o : StepOutcome}

/-! ## Enabled and not enabled steps -/

/-- Where no step is enabled the same state is answered (40_engine.md R110; log 5). -/
theorem step_eq_self (h : s.stepEnabled = false) : step s = .next s := by
  simp [step, engineStep, h]

/-- Only a Running engine has a step enabled (40_engine.md R110). -/
theorem stepEnabled_eq_false_of_runState (h : s.runState ≠ .running) : s.stepEnabled = false := by
  simp [State.stepEnabled, h]

/-- How a step ends, with what enabled it: it was not enabled and left the state alone, or the run was Running and took
one fault entry or committed the plan of the decoded instruction (40_engine.md R110, R118, R119). -/
theorem step_next_running_cases (h : step s = .next t) :
    (s.stepEnabled = false ∧ t = s) ∨
      s.runState = .running ∧ ((∃ r, t = emitTrace s (faultEntry r s)) ∨
        ∃ i e o, decode (s.mem.drop s.ip) = .ok i ∧ plan i s = .ok (e, o) ∧ t = emitTrace s (commit e o s)) := by
  obtain ⟨he, hs⟩ | ⟨he, j, -, hs⟩ | ⟨he, i, e, o, hi, hp, hs⟩ | ⟨he, i, r, -, -, hs⟩ := step_cases s <;>
    rw [hs] at h <;> cases h
  · exact .inl ⟨he, rfl⟩
  · exact .inr ⟨((stepEnabled_iff s).1 he).1, .inl ⟨_, rfl⟩⟩
  · exact .inr ⟨((stepEnabled_iff s).1 he).1, .inr ⟨i, e, o, hi, hp, rfl⟩⟩
  · exact .inr ⟨((stepEnabled_iff s).1 he).1, .inl ⟨r, rfl⟩⟩

/-- No step outcome makes a Running engine Faulted: only the fault entry does (40_engine.md R117, R119). -/
theorem nextRunState_ne_faulted {r : RunState} (h : r = .running) (o : StepOutcome) :
    o.nextRunState r ≠ .faulted := by
  subst h
  cases o <;> simp

/-! ## IP -/

/-- The instruction built for an opcode has that opcode (30_encoding.md R84, R90). -/
@[simp] theorem opcode_buildInstr (op : Opcode) (n : Nat) (cs : List Int) : (buildInstr op n cs).opcode = op := by
  cases op <;> rfl

/-- Decode checks that the instruction word and every operand cell exist (30_encoding.md R85, R89). -/
theorem width_le_length_of_decode {m : List Int} (h : decode m = .ok i) : i.width ≤ m.length := by
  obtain ⟨w, ops, op, rfl, -, -, -, harity, -, rfl⟩ := decode_ok_cases h
  simp only [Instr.width, opcode_buildInstr, List.length_cons]
  omega

/-- The width of an instruction decoded at IP does not reach past the end of memory (30_encoding.md R89). -/
theorem ip_add_width_le_of_decode (h : decode (s.mem.drop s.ip) = .ok i) : s.ip + i.width ≤ s.mem.length := by
  have hfit := width_le_length_of_decode h
  have hpos : 1 ≤ i.width := Nat.le_add_right 1 _
  rw [List.length_drop] at hfit
  omega

/-- The outcomes an instruction's plan can have: HALT's, an advance by the instruction's width, or a jump to an existing
cell (40_engine.md R117, 30_encoding.md R85, 43_jumps.md R162). -/
theorem plan_outcome_cases (h : plan i s = .ok (e, o)) :
    o = .halt ∨ o = .advance i.width ∨ ∃ k, k < s.mem.length ∧ o = .jump k := by
  obtain ⟨_, _, _, -, -, hw, -, rfl, -⟩ | ⟨_, _, _, _, rfl, -, -, -, rfl⟩ | ⟨_, _, rfl, -, -, rfl⟩ |
    ⟨_, _, _, _, hi, -, -, -, ⟨-, rfl⟩ | ⟨k, hk, rfl, -⟩⟩ | ⟨-, -, rfl⟩ := plan_ok_cases h
  · exact .inr (.inl (by rw [hw]))
  · exact .inr (.inl rfl)
  · exact .inr (.inl rfl)
  · exact .inr (.inl (by obtain rfl | rfl := hi <;> rfl))
  · exact .inr (.inr ⟨k, hk.2, rfl⟩)
  · exact .inl rfl

/-- Settles O52: a fault and HALT end the run, an advance stays within the cells decode has checked, and a jump goes to an
existing cell. -/
theorem stepKeepsIpInRange : Obligations.StepKeepsIpInRange := by
  intro s t hs h
  obtain rfl | ⟨r, rfl⟩ | ⟨i, e, o, hi, hp, rfl⟩ := step_next_cases h
  · exact hs
  · simp [IpInRange]
  · obtain rfl | rfl | ⟨k, hk, rfl⟩ := plan_outcome_cases hp
    · simp [IpInRange]
    · simpa [IpInRange] using fun _ => ip_add_width_le_of_decode hi
    · simpa [IpInRange] using fun _ => hk.le

/-! ## The fault registers -/

/-- The trace port writes no fault register (60_exceptions.md R217). -/
theorem faultRecordSound_emitTrace : FaultRecordSound (emitTrace s t) ↔ FaultRecordSound t := Iff.rfl

/-- Every fault entry makes a sound fault record, whatever stood there before (60_exceptions.md R209). -/
theorem faultEntry_faultRecordSound (r : Raise) (s : State) : FaultRecordSound (faultEntry r s) :=
  ⟨fun h => absurd rfl h, fun _ => ⟨cause_ne_none r, rfl, rfl, addr_eq_zero r⟩⟩

/-- A commit of a Running engine leaves its fault registers 0 (40_engine.md R118). -/
theorem commit_keeps_faultRecordSound (e : Effects) (o : StepOutcome) (hrun : s.runState = .running)
    (hs : FaultRecordSound s) : FaultRecordSound (commit e o s) := by
  have hclear : s.fault = .clear := hs.1 (by simp [hrun])
  exact ⟨fun _ => hclear, fun h => absurd h (nextRunState_ne_faulted hrun o)⟩

/-- Settles O54: a fault entry writes a sound record, and a commit happens only while Running, where the registers are 0
and stay so. -/
theorem stepKeepsFaultRecordSound : Obligations.StepKeepsFaultRecordSound := by
  intro s t hs h
  obtain ⟨-, rfl⟩ | ⟨hrun, ⟨r, rfl⟩ | ⟨i, e, o, -, -, rfl⟩⟩ := step_next_running_cases h
  · exact hs
  · exact faultRecordSound_emitTrace.2 (faultEntry_faultRecordSound r s)
  · exact faultRecordSound_emitTrace.2 (commit_keeps_faultRecordSound e o hrun hs)

/-! ## RUN_STATE -/

/-- A run whose first step answers a state goes on from it. -/
theorem run_succ_of_step {M : Host.Core} {a b : M.State} (h : M.step a = .next b) (n : Nat) :
    M.run (n + 1) a = M.run n b := by
  simp only [Host.Core.run, h]

/-- Steps from a state that steps to itself stay there, however many they are. -/
theorem run_eq_self_of_step {M : Host.Core} {a : M.State} (h : M.step a = .next a) (n : Nat) :
    M.run n a = .next a := by
  induction n with
  | zero => rfl
  | succ n ih => rw [run_succ_of_step h, ih]

/-- Settles O39: a Halted or Faulted engine has no step enabled, so it steps to itself. -/
theorem endedRunStaysEnded : Obligations.EndedRunStaysEnded := by
  intro n s hended
  have hrun : s.runState ≠ .running := by obtain h | h := hended <;> simp [h]
  exact run_eq_self_of_step (M := Sys2Proof.core) (step_eq_self (stepEnabled_eq_false_of_runState hrun)) n

/-! ## TICK -/

/-- The next tick is a counter of TICK_BITS bits (10_state.md R25). -/
theorem nextTick_lt (c : Config) (tick : Nat) : nextTick c tick < 2 ^ c.tickBits :=
  Nat.mod_lt _ (Nat.two_pow_pos _)

/-- Settles O44: a fault entry leaves TICK and makes the run Faulted; a commit counts and does not. -/
theorem tickCountsCompletedSteps : Obligations.TickCountsCompletedSteps := by
  intro s t he h
  obtain ⟨hne, -⟩ | ⟨hrun, ⟨r, rfl⟩ | ⟨i, e, o, -, -, rfl⟩⟩ := step_next_running_cases h
  · rw [he] at hne
    cases hne
  · simp
  · have hlive : (emitTrace s (commit e o s)).runState ≠ .faulted := nextRunState_ne_faulted hrun o
    rw [if_neg hlive]
    rfl

/-- Settles O53: a fault entry copies TICK to FAULT_TICK, and a commit counts modulo 2^TICK_BITS. -/
theorem stepKeepsTickInRange : Obligations.StepKeepsTickInRange := by
  intro s t hs h
  obtain ⟨htick, hfault⟩ := hs
  obtain rfl | ⟨r, rfl⟩ | ⟨i, e, o, -, -, rfl⟩ := step_next_cases h
  · exact ⟨htick, hfault⟩
  · exact ⟨htick, htick⟩
  · exact ⟨nextTick_lt s.config s.tick, hfault⟩

/-! ## The queues -/

/-- An instruction outputs nothing, or it is an OUT and outputs its source's value (42_io.md R151, R153). -/
theorem plan_push_cases (h : plan i s = .ok (e, o)) :
    e.push = none ∨ ∃ p v, i = .output p ∧ Reads s p v ∧ e.push = some v := by
  obtain ⟨_, _, _, -, -, -, rfl, -, -⟩ | ⟨_, _, _, _, -, -, -, rfl, -⟩ | ⟨p, v, hi, hv, rfl, -⟩ |
    ⟨_, _, _, _, -, -, -, rfl, -⟩ | ⟨-, rfl, -⟩ := plan_ok_cases h
  · exact .inl rfl
  · exact .inl rfl
  · exact .inr ⟨p, v, hi, hv, rfl⟩
  · exact .inl rfl
  · exact .inl rfl

/-- An instruction consumes no input, or it is an IN, which consumes the first value and writes it to the cell its
destination names (42_io.md R150, R152). -/
theorem plan_pop_cases (h : plan i s = .ok (e, o)) :
    e.pop = false ∨ ∃ d k v q, i = .input d ∧ NamesCell s d k ∧ s.inq = v :: q ∧
      e = { write := some (k, v), pop := true } := by
  obtain ⟨_, _, _, -, -, -, rfl, -, -⟩ | ⟨d, k, v, q, hi, hk, hq, he, -⟩ | ⟨_, _, -, -, rfl, -⟩ |
    ⟨_, _, _, _, -, -, -, rfl, -⟩ | ⟨-, rfl, -⟩ := plan_ok_cases h
  · exact .inl rfl
  · exact .inr ⟨d, k, v, q, hi, hk, hq, he⟩
  · exact .inl rfl
  · exact .inl rfl
  · exact .inl rfl

/-- Settles O45: a fault entry leaves OUTQ, and a commit appends what the plan outputs. -/
theorem outputOnlyAppended : Obligations.OutputOnlyAppended := by
  intro s t h
  obtain rfl | ⟨r, rfl⟩ | ⟨i, e, o, hi, hp, rfl⟩ := step_next_cases h
  · exact .inl rfl
  · exact .inl rfl
  · obtain hnone | ⟨p, v, rfl, hv, hsome⟩ := plan_push_cases hp
    · exact .inl (by simp [Effects.outqAfter, hnone])
    · exact .inr ⟨p, v, hi, hv, by simp [Effects.outqAfter, hsome, outPush]⟩

/-- Settles O46: a fault entry leaves INQ, and a commit pops it only for IN, whose write is the value popped. -/
theorem inputOnlyConsumedByIn : Obligations.InputOnlyConsumedByIn := by
  intro s t h
  obtain rfl | ⟨r, rfl⟩ | ⟨i, e, o, hi, hp, rfl⟩ := step_next_cases h
  · exact .inl rfl
  · exact .inl rfl
  · obtain hkeep | ⟨d, k, v, q, rfl, hk, hq, rfl⟩ := plan_pop_cases hp
    · exact .inl (by simp [Effects.inqAfter, hkeep])
    · exact .inr ⟨d, v, k, hi, hk, by simp [inPop, hq], rfl⟩

end Sys2Proof.Machine
end

section
/-! PROOFS. The memory (20_memory.md): what a read answers, before and after a write, and which cells an instruction and a
step can write. -/

namespace Sys2Proof.Machine

variable {s t : State} {i : Instr} {e : Effects} {o : StepOutcome} {a dest v : Int} {k : Nat}

/-! ## Reads after a write -/

theorem memRead_of_getElem? (h : s.mem[k]? = some v) : memRead (k : Int) s = .ok v := by
  obtain ⟨hk, -⟩ := List.getElem?_eq_some_iff.1 h
  simp [memRead, checkAddress_inRange hk, h]

theorem memRead_outOfRange (h : OutOfRange s a) : memRead a s = .error (.outOfBoundsAddress a) := by
  simp [memRead, checkAddress_outOfRange h]

/-- A read depends on the memory alone (20_memory.md R51). -/
theorem memRead_of_mem_eq (h : t.mem = s.mem) (a : Int) : memRead a t = memRead a s := by
  obtain ⟨k, v, ⟨rfl, -⟩, hv, hs⟩ | ⟨ho, hs⟩ := memRead_cases a s <;> rw [hs]
  · exact memRead_of_getElem? (h ▸ hv)
  · exact memRead_outOfRange (by rwa [OutOfRange, h])

/-- The cell written reads as written (20_memory.md R52). -/
theorem memRead_written_cell (hk : k < s.mem.length) (h : t.mem = writeCell k v s.mem) :
    memRead (k : Int) t = .ok v :=
  memRead_of_getElem? (by rw [h, writeCell, List.getElem?_set_self hk])

/-- A write leaves what every other address reads, the addresses that fault among them (20_memory.md R52, R53). -/
theorem memRead_other_cell (h : t.mem = writeCell k v s.mem) (ha : a ≠ (k : Int)) : memRead a t = memRead a s := by
  obtain ⟨j, w, ⟨rfl, -⟩, hw, hs⟩ | ⟨ho, hs⟩ := memRead_cases a s <;> rw [hs]
  · have hkj : k ≠ j := fun hkj => ha (hkj ▸ rfl)
    exact memRead_of_getElem? (by rw [h, writeCell, List.getElem?_set_ne hkj, hw])
  · exact memRead_outOfRange (by simpa [OutOfRange, h] using ho)

/-- Settles O10: the two cases of a read are the two branches of R51. -/
theorem memReadRule : Obligations.MemReadRule := by
  intro s a
  obtain ⟨k, v, ⟨rfl, hk⟩, hv, hr⟩ | ⟨ho, hr⟩ := memRead_cases a s
  · rw [if_neg (by omega)]
    exact ⟨v, hv, hr⟩
  · rw [if_pos ho]
    exact hr

/-- Settles O11: the written cell reads as written, and every other address as before. -/
theorem writeThenRead : Obligations.WriteThenRead := fun s k v hk =>
  ⟨memRead_written_cell hk rfl, writeCell_length k v s.mem, fun _ ha => memRead_other_cell rfl ha⟩

/-! ## What an instruction with a destination leaves of memory -/

/-- Every address reads in `t` as in `s`, but for the one `addr_of` gives for the destination, if it gives one
(20_memory.md R52, 40_engine.md R115): the memory part of a frame, of the storing instructions and of IN. -/
def ReadsKeptBut (dest : Int) (s t : State) : Prop :=
  (∀ k, addrOf dest s = .ok k → ∀ a : Int, a ≠ (k : Int) → memRead a t = memRead a s) ∧
    ∀ r, addrOf dest s = .error r → ∀ a : Int, memRead a t = memRead a s

theorem readsKeptBut_of_mem_eq (h : t.mem = s.mem) : ReadsKeptBut dest s t :=
  ⟨fun _ _ a _ => memRead_of_mem_eq h a, fun _ _ a => memRead_of_mem_eq h a⟩

/-- A write to the cell the destination names keeps every other read; `addr_of` gives that cell and no fault. -/
theorem readsKeptBut_of_write (hk : NamesCell s dest k) (h : t.mem = writeCell k v s.mem) :
    ReadsKeptBut dest s t := by
  have hok : addrOf dest s = .ok k := addrOf_namesCell hk
  constructor
  · intro j hj a ha
    cases hok.symm.trans hj
    exact memRead_other_cell h ha
  · intro r hr
    cases hok.symm.trans hr

/-- ADD, MUL, LT and EQ are the storing shape, each with its own ALU function (41_arithmetic.md R140, R141,
44_compare.md R170, R171). -/
theorem plan_eq_storePlan {s1 s2 : Param}
    (hi : i ∈ [Instr.add s1 s2 dest, .mul s1 s2 dest, .lessThan s1 s2 dest, .equals s1 s2 dest]) (s : State) :
    ∃ alu, plan i s = storePlan alu s1 s2 dest s := by
  simp only [List.mem_cons, List.not_mem_nil, or_false] at hi
  obtain rfl | rfl | rfl | rfl := hi <;> exact ⟨_, rfl⟩

/-- The storing shape plans one write to the destination's cell and an advance, or raises a fault (40_engine.md R114 to
R117). -/
theorem storePlan_write_or_raise (alu : Int → Int → Except Raise Int) (s1 s2 : Param) (dest : Int) (s : State) :
    (∃ k v, NamesCell s dest k ∧ storePlan alu s1 s2 dest s = .ok ({ write := some (k, v) }, .advance 4)) ∨
      ∃ r, storePlan alu s1 s2 dest s = .error r := by
  obtain ⟨_, _, k, v, -, -, hk, -, hp⟩ | ⟨_, -, hp⟩ | ⟨_, _, _, r, -, -, -, -, hp⟩ := storePlan_cases alu s1 s2 dest s
  · exact .inl ⟨k, v, hk, hp⟩
  · exact .inr ⟨_, hp⟩
  · exact .inr ⟨r, hp⟩

/-- Settles O31: the storing shape commits one write to the destination's cell, or its fault entry writes no memory. -/
theorem storingFrame : Obligations.StoringFrame := by
  intro i s1 s2 dest s t hi h
  obtain ⟨alu, hplan⟩ := plan_eq_storePlan hi s
  obtain ⟨k, v, hk, hp⟩ | ⟨r, hp⟩ := storePlan_write_or_raise alu s1 s2 dest s
  · rw [exec_of_plan_ok (hplan.trans hp)] at h
    cases h
    exact ⟨rfl, rfl, rfl, rfl, rfl, .inl ⟨rfl, rfl⟩, readsKeptBut_of_write hk rfl⟩
  · rw [exec_of_plan_error (hplan.trans hp)] at h
    cases h
    exact ⟨rfl, rfl, rfl, rfl, rfl, .inr ⟨r, rfl⟩, readsKeptBut_of_mem_eq rfl⟩

/-! ## What a step writes -/

/-- An instruction writes nothing, or it has a destination and writes to the cell that names (20_memory.md R50,
40_engine.md R118). -/
theorem plan_write_cases (h : plan i s = .ok (e, o)) :
    e.write = none ∨ ∃ d k v, i.dest = some d ∧ NamesCell s d k ∧ e.write = some (k, v) := by
  obtain ⟨d, k, v, hd, hk, -, rfl, -, -⟩ | ⟨d, k, v, _, rfl, hk, -, rfl, -⟩ | ⟨_, _, -, -, rfl, -⟩ |
    ⟨_, _, _, _, -, -, -, rfl, -⟩ | ⟨-, rfl, -⟩ := plan_ok_cases h
  · exact .inr ⟨d, k, v, hd, hk, rfl⟩
  · exact .inr ⟨d, k, v, rfl, hk, rfl⟩
  · exact .inl rfl
  · exact .inl rfl
  · exact .inl rfl

/-- Settles O47: a fault entry leaves MEM, and a commit makes the plan's write, if it has one. -/
theorem memoryWrittenOnlyAtDestination : Obligations.MemoryWrittenOnlyAtDestination := by
  intro s t h
  obtain rfl | ⟨r, rfl⟩ | ⟨i, e, o, hi, hp, rfl⟩ := step_next_cases h
  · exact .inl rfl
  · exact .inl rfl
  · obtain hnone | ⟨d, k, v, hd, hk, hsome⟩ := plan_write_cases hp
    · exact .inl (by simp [Effects.memAfter, hnone])
    · exact .inr ⟨i, d, v, k, hi, hd, hk, by simp [Effects.memAfter, hsome, writeCell]⟩

end Sys2Proof.Machine
end

section
/-! PROOFS. The encoding (30_encoding.md): what the decoder answers for a word of each kind, which words are legal, and
that encoding and decoding are each other's inverse. -/

namespace Sys2Proof

variable {w : Int} {n : Nat} {op : Opcode} {i : Instr} {rest : List Int}

/-! ## The checks of the decoder, said of the digits -/

/-- Check 3 of R208 as R87 and R88 say it. -/
theorem modesLegal_iff :
    modesLegal op n = true ↔ (∀ k < op.arity, digit n (k + 2) ≤ 1) ∧ n / 10 ^ (2 + op.arity) = 0 := by
  simp [modesLegal]

/-- Check 5 of R208 as R91 says it. -/
theorem destinationImmediate_iff :
    destinationImmediate op n = true ↔ ∃ d, op.destination = some d ∧ digit n (d + 1) = 1 := by
  unfold destinationImmediate
  cases op.destination <;> simp

/-- A digit is the same of the number and of the word. -/
theorem natCast_digit (n k : Nat) : ((digit n k : Nat) : Int) = (n : Int) / 10 ^ k % 10 := by
  simp [digit]

/-- Check 3 of R208 on the word itself. -/
theorem modesLegal_iff_word :
    modesLegal op n = true ↔
      (∀ k < op.arity, (n : Int) / 10 ^ (k + 2) % 10 ≤ 1) ∧ (n : Int) / 10 ^ (2 + op.arity) = 0 := by
  simp only [modesLegal_iff, ← natCast_digit]
  norm_cast

/-- Check 5 of R208 on the word itself. -/
theorem destinationImmediate_iff_word :
    destinationImmediate op n = true ↔ ∃ d, op.destination = some d ∧ (n : Int) / 10 ^ (d + 1) % 10 = 1 := by
  simp only [destinationImmediate_iff, ← natCast_digit]
  norm_cast

/-! ## What decode answers -/

theorem decode_negative (h : w < 0) (rest : List Int) : decode (w :: rest) = .error (.unknownOpcode w) := by
  simp [decode, h]

theorem decode_undefined (h : opcodeOf (n % 100) = none) (rest : List Int) :
    decode ((n : Int) :: rest) = .error (.unknownOpcode n) := by
  simp [decode, h]

/-- Once the opcode is known, decode is the checks 3 to 5 of R208 in order. -/
theorem decode_defined (h : n % 100 = op.number) (rest : List Int) :
    decode ((n : Int) :: rest) =
      if modesLegal op n = false then .error (.illegalMode n)
      else if rest.length < op.arity then .error (.missingCell (rest.length + 1))
      else if destinationImmediate op n = true then .error .invalidWriteTarget
      else .ok (buildInstr op n rest) := by
  simp [decode, opcodeOf_eq_some.2 h]

/-- With legal modes and all cells present, only the destination is left to check (R208, check 5). -/
theorem decode_modesLegal (h : n % 100 = op.number) (hlegal : modesLegal op n = true)
    (hlen : op.arity ≤ rest.length) :
    decode ((n : Int) :: rest) =
      if destinationImmediate op n = true then .error .invalidWriteTarget else .ok (buildInstr op n rest) := by
  rw [decode_defined h, if_neg (by simp [hlegal]), if_neg (by omega)]

/-! ## UnknownOpcode -/

/-- The column OP of R84. -/
theorem exists_number_iff : (∃ op : Opcode, n = op.number) ↔ n ∈ [1, 2, 3, 4, 5, 6, 7, 8, 99] := by
  constructor
  · rintro ⟨op, rfl⟩
    cases op <;> decide
  · intro h
    have hall : ∀ m ∈ [1, 2, 3, 4, 5, 6, 7, 8, 99], (opcodeOf m).isSome := by decide
    obtain ⟨op, hop⟩ := Option.isSome_iff_exists.1 (hall n h)
    exact ⟨op, opcodeOf_eq_some.1 hop⟩

theorem decode_defined_ne_unknownOpcode (h : n % 100 = op.number) (rest : List Int) (v : Int) :
    decode ((n : Int) :: rest) ≠ .error (.unknownOpcode v) := by
  rw [decode_defined h]
  split_ifs <;> simp

/-- Settles O5: a negative word and an undefined OP are rejected so, and a defined OP goes on to the other checks. -/
theorem unknownOpcodeExactly : Obligations.UnknownOpcodeExactly := by
  intro w rest
  obtain hneg | hpos := lt_or_ge w 0
  · simp [decode_negative hneg, hneg]
  · lift w to ℕ using hpos with n
    have hlist : (n : Int) % 100 ∈ ([1, 2, 3, 4, 5, 6, 7, 8, 99] : List Int) ↔
        ∃ op : Opcode, n % 100 = op.number := by
      rw [exists_number_iff]
      simp only [List.mem_cons, List.not_mem_nil, or_false]
      omega
    rw [hlist, or_iff_right (by omega)]
    constructor
    · rintro h ⟨op, hop⟩
      exact decode_defined_ne_unknownOpcode hop rest n h
    · intro h
      exact decode_undefined (Option.eq_none_iff_forall_ne_some.2 fun op hop => h ⟨op, opcodeOf_eq_some.1 hop⟩) rest

/-! ## IllegalMode, missing cells and the destination -/

theorem decode_eq_illegalMode_iff (h : n % 100 = op.number) (rest : List Int) :
    decode ((n : Int) :: rest) = .error (.illegalMode n) ↔ modesLegal op n = false := by
  rw [decode_defined h]
  split_ifs with hmodes
  · simp [hmodes]
  all_goals simp [hmodes]

/-- Settles O6: IllegalMode is check 3 alone, the first once the opcode is known. -/
theorem illegalModeExactly : Obligations.IllegalModeExactly := by
  intro w rest op hw hop
  lift w to ℕ using hw with n
  rw [decode_eq_illegalMode_iff (by exact_mod_cast hop), ← Bool.not_eq_true, modesLegal_iff_word, not_and_or]
  refine or_congr ?_ Iff.rfl
  push Not
  rfl

/-- Settles O7: check 4 comes after check 3 and before check 5. -/
theorem missingCellRejected : Obligations.MissingCellRejected := by
  refine ⟨rfl, fun w rest op hw hop hmodes habove hlen => ?_⟩
  lift w to ℕ using hw with n
  have hlegal : modesLegal op n = true := modesLegal_iff_word.2 ⟨hmodes, habove⟩
  rw [decode_defined (by exact_mod_cast hop), if_neg (by simp [hlegal]), if_pos hlen]

/-- Settles O8: check 5 is the last one, and what passes it is built for the opcode. -/
theorem immediateDestinationRejected : Obligations.ImmediateDestinationRejected := by
  intro w rest op hw hop hmodes habove hlen
  lift w to ℕ using hw with n
  have hlegal : modesLegal op n = true := modesLegal_iff_word.2 ⟨hmodes, habove⟩
  rw [decode_modesLegal (by exact_mod_cast hop) hlegal hlen]
  simp only [← destinationImmediate_iff_word]
  split_ifs
  · rfl
  · exact ⟨_, rfl, Machine.opcode_buildInstr op n rest⟩

/-! ## The legal words -/

/-- The number of source parameters: all of them but the destination (30_encoding.md R84). -/
def Opcode.sources (op : Opcode) : Nat :=
  match op.destination with
  | some _ => op.arity - 1
  | none => op.arity

/-- A destination is the last parameter (R84). -/
theorem destination_cases (op : Opcode) :
    (op.destination = some op.arity ∧ op.arity = op.sources + 1) ∨
      (op.destination = none ∧ op.arity = op.sources) := by
  cases op <;> decide

/-- The words that pass the checks 3 and 5 are those whose digits after OP are the modes of the sources, 0 or 1, and
nothing else: a destination's digit must be 0 like the digits above it (R88, R91). -/
theorem legal_iff :
    (modesLegal op n = true ∧ destinationImmediate op n = false) ↔
      (∀ k < op.sources, digit n (k + 2) ≤ 1) ∧ n / 10 ^ (2 + op.sources) = 0 := by
  rw [modesLegal_iff, ← Bool.not_eq_true, destinationImmediate_iff]
  obtain ⟨hdest, harity⟩ | ⟨hdest, harity⟩ := destination_cases op
  · have hdigit : digit n (op.sources + 2) = n / 10 ^ (2 + op.sources) % 10 := by rw [digit, Nat.add_comm]
    have habove : n / 10 ^ (2 + (op.sources + 1)) = n / 10 ^ (2 + op.sources) / 10 := by
      rw [← Nat.add_assoc, Nat.pow_succ, Nat.div_div_eq_div_mul]
    simp only [hdest, harity, Nat.forall_lt_succ_right, hdigit, habove, Option.some.injEq, exists_eq_left']
    constructor
    · rintro ⟨⟨⟨hmodes, hle⟩, hzero⟩, hne⟩
      exact ⟨hmodes, by omega⟩
    · rintro ⟨hmodes, hzero⟩
      exact ⟨⟨⟨hmodes, by omega⟩, by omega⟩, by omega⟩
  · simp [hdest, harity]

/-! ## The encoding of an instruction -/

theorem number_lt_hundred (op : Opcode) : op.number < 100 := by
  cases op <;> decide

theorem sources_le_two (op : Opcode) : op.sources ≤ 2 := by
  cases op <;> decide

/-- A mode digit is 0 or 1, and 0 for a parameter that is no source (R95). -/
theorem modes_le (i : Instr) : i.modes.1 ≤ min 1 i.opcode.sources ∧ i.modes.2 ≤ i.opcode.sources - 1 := by
  have h := Laws.Encoding.mode_le_one
  cases i <;> simp [Instr.opcode, Instr.modes, Opcode.sources, Opcode.destination, Opcode.arity, h]

theorem modes_le_one (i : Instr) : i.modes.1 ≤ 1 ∧ i.modes.2 ≤ 1 := by
  have hmodes := modes_le i
  have hsources := sources_le_two i.opcode
  omega

/-- OP of an encoded word (R81, R95). -/
theorem encodeWord_mod_hundred (i : Instr) : encodeWord i % 100 = i.opcode.number := by
  have hop := number_lt_hundred i.opcode
  unfold encodeWord
  omega

/-- M1 of an encoded word (R81, R95). -/
theorem digit_two_encodeWord (i : Instr) : digit (encodeWord i) 2 = i.modes.1 := by
  have hop := number_lt_hundred i.opcode
  obtain ⟨h1, h2⟩ := modes_le_one i
  unfold digit encodeWord
  omega

/-- M2 of an encoded word (R81, R95). -/
theorem digit_three_encodeWord (i : Instr) : digit (encodeWord i) 3 = i.modes.2 := by
  have hop := number_lt_hundred i.opcode
  obtain ⟨h1, h2⟩ := modes_le_one i
  unfold digit encodeWord
  omega

/-- An encoded word has no digit above the modes of its sources (R95). -/
theorem encodeWord_lt (i : Instr) : encodeWord i < 10 ^ (2 + i.opcode.sources) := by
  have hop := number_lt_hundred i.opcode
  have hsources := sources_le_two i.opcode
  obtain ⟨h1, h2⟩ := modes_le i
  unfold encodeWord
  -- one source more is one digit more, and the bound a literal power of ten for each number of sources
  generalize i.opcode.sources = k at h1 h2 hsources ⊢
  interval_cases k <;> omega

/-- The word of an instruction passes every check on words (R88, R91, R95). -/
theorem encodeWord_legal (i : Instr) :
    modesLegal i.opcode (encodeWord i) = true ∧ destinationImmediate i.opcode (encodeWord i) = false := by
  obtain ⟨h1, h2⟩ := modes_le_one i
  refine legal_iff.2 ⟨fun k hk => ?_, Nat.div_eq_of_lt (encodeWord_lt i)⟩
  have hsources := sources_le_two i.opcode
  obtain rfl | rfl : k = 0 ∨ k = 1 := by omega
  · exact (digit_two_encodeWord i).trans_le h1
  · exact (digit_three_encodeWord i).trans_le h2

/-- The word of an instruction decodes with any operand cells (R90, R95). -/
theorem decode_encodeWord (i : Instr) (cs : List Int) (h : i.opcode.arity ≤ cs.length) :
    decode ((encodeWord i : Int) :: cs) = .ok (buildInstr i.opcode (encodeWord i) cs) := by
  obtain ⟨hmodes, hdest⟩ := encodeWord_legal i
  rw [decode_modesLegal (encodeWord_mod_hundred i) hmodes h, if_neg (by simp [hdest])]

@[simp] theorem ofMode_mode_cell (p : Param) : Param.ofMode p.mode p.cell = p := by
  cases p <;> rfl

theorem arity_eq_length_cells (i : Instr) : i.opcode.arity = i.cells.length := by
  cases i <;> rfl

/-- An instruction is rebuilt from its own word and cells (R90, R95). -/
theorem buildInstr_encodeWord_cells (i : Instr) (rest : List Int) :
    buildInstr i.opcode (encodeWord i) (i.cells ++ rest) = i := by
  have h1 := digit_two_encodeWord i
  have h2 := digit_three_encodeWord i
  cases i <;> simp [buildInstr, Instr.opcode, Instr.cells, h1, h2, Instr.modes]

/-- Settles O1: an instruction's word passes every check, and its digits and cells build the instruction again. -/
theorem decodeEncodeRoundTrip : Obligations.DecodeEncodeRoundTrip := by
  intro i rest
  calc decode (encode i ++ rest)
      = .ok (buildInstr i.opcode (encodeWord i) (i.cells ++ rest)) :=
        decode_encodeWord i _ (by simp [arity_eq_length_cells])
    _ = .ok i := by rw [buildInstr_encodeWord_cells]

/-! ## A decoded instruction's own encoding -/

theorem mode_ofMode (m : Nat) (c : Int) : (Param.ofMode m c).mode = min m 1 := by
  unfold Param.ofMode
  split_ifs with h
  · simp [h, Param.mode]
  · exact (Nat.min_eq_right (Nat.pos_of_ne_zero h)).symm

/-- The modes of the instruction built from a word: those of its sources come from the word's digits, the others are 0
(R90, R91). -/
theorem modes_buildInstr (op : Opcode) (n : Nat) (cs : List Int) :
    (buildInstr op n cs).modes = (min (digit n 2) (min 1 op.sources), min (digit n 3) (op.sources - 1)) := by
  cases op <;> simp [buildInstr, Instr.modes, mode_ofMode, Opcode.sources, Opcode.destination, Opcode.arity]

/-- A legal word is the word of the instruction it builds (R88, R91, R95). -/
theorem encodeWord_buildInstr (hop : n % 100 = op.number) (hmodes : modesLegal op n = true)
    (hdest : destinationImmediate op n = false) (cs : List Int) : encodeWord (buildInstr op n cs) = n := by
  obtain ⟨hsource, habove⟩ := legal_iff.1 ⟨hmodes, hdest⟩
  have h1 : 0 < op.sources → digit n 2 ≤ 1 := hsource 0
  have h2 : 1 < op.sources → digit n 3 ≤ 1 := hsource 1
  have hsources := sources_le_two op
  rw [encodeWord, Machine.opcode_buildInstr, modes_buildInstr]
  unfold digit at h1 h2 ⊢
  -- for each number of sources, `n` is OP and that many digits, with nothing above them
  generalize op.sources = k at habove h1 h2 hsources ⊢
  interval_cases k <;> omega

/-- Settles O2: the word is the one its digits encode, and the operand cells are the instruction's. -/
theorem decodedCellsAreTheEncoding : Obligations.DecodedCellsAreTheEncoding := by
  intro m i h
  obtain ⟨w, ops, op, rfl, hw, hop, hmodes, harity, hdest, rfl⟩ := decode_ok_cases h
  have hword := encodeWord_buildInstr (opcodeOf_eq_some.1 hop) hmodes hdest ops
  refine ⟨ops.drop op.arity, ?_⟩
  rw [encode, hword, cells_buildInstr harity, Int.toNat_of_nonneg hw, List.cons_append, List.take_append_drop]

/-- The word a decoded instruction was read from (R95). -/
theorem word_eq_encodeWord_of_decode (h : decode (w :: rest) = .ok i) : w = encodeWord i := by
  obtain ⟨_, hcells⟩ := decodedCellsAreTheEncoding _ _ h
  exact (List.cons.inj hcells).1

/-! ## The 28 words -/

/-- The words of R84 with each choice of modes for the sources (R88, R91). -/
def legalWords : List Int :=
  [1, 101, 1001, 1101, 2, 102, 1002, 1102, 3, 4, 104, 5, 105, 1005, 1105, 6, 106, 1006, 1106,
    7, 107, 1007, 1107, 8, 108, 1008, 1108, 99]

theorem opcode_word_mem_legalWords (op : Opcode) :
    ∀ m1 ≤ min 1 op.sources, ∀ m2 ≤ op.sources - 1,
      ((op.number + 100 * m1 + 1000 * m2 : Nat) : Int) ∈ legalWords := by
  cases op <;> decide

theorem encodeWord_mem_legalWords (i : Instr) : (encodeWord i : Int) ∈ legalWords :=
  opcode_word_mem_legalWords i.opcode _ (modes_le i).1 _ (modes_le i).2

/-- Each of the words decodes with some operand cells, so it is the word of an instruction. -/
theorem exists_encodeWord_of_mem_legalWords (h : w ∈ legalWords) : ∃ i, w = encodeWord i := by
  have hall : ∀ w ∈ legalWords, (decode [w, 0, 0, 0]).toOption.isSome := by decide
  have hw := hall w h
  cases hi : decode [w, 0, 0, 0] with
  | error j => simp [hi, Except.toOption] at hw
  | ok i => exact ⟨i, word_eq_encodeWord_of_decode hi⟩

theorem arity_le_three (op : Opcode) : op.arity ≤ 3 := by
  cases op <;> decide

/-- Settles O3: a word that decodes is the word of an instruction, and that word decodes with any three cells. -/
theorem legalWordsExactly : Obligations.LegalWordsExactly := by
  intro w c1 c2 c3 rest
  constructor
  · rintro ⟨i, h⟩
    rw [word_eq_encodeWord_of_decode h]
    exact encodeWord_mem_legalWords i
  · intro h
    obtain ⟨i, rfl⟩ := exists_encodeWord_of_mem_legalWords h
    have harity := arity_le_three i.opcode
    exact ⟨_, decode_encodeWord i _ (by simp only [List.length_cons]; omega)⟩

/-! ## Operand cells and samples -/

/-- Settles O9: the operand cells of a decoded instruction are cells it was read from. -/
theorem decodedInstrWellFormed : Obligations.DecodedInstrWellFormed :=
  fun _ _ _ hm h => Machine.decode_wellFormed hm h

/-- Settles O4: the decoder run on the ten samples. -/
theorem sampleWordsDecode : Obligations.SampleWordsDecode := by
  unfold Obligations.SampleWordsDecode
  decide

end Sys2Proof
end

section
/-! PROOFS. The engine (40_engine.md): operands, the ALU's rules, where an instruction and a step fault, where the
next ip goes, and what a step depends on. -/

namespace Sys2Proof.Machine

variable {s t u : State} {i : Instr} {e : Effects} {o : StepOutcome} {r : Raise}

/-! ## The step as one plan -/

/-- What one enabled step is about to commit, or the fault it raises, in fetch, decode or the instruction (40_engine.md
R111 to R117). -/
def stepPlan (s : State) : Except Raise (Effects × StepOutcome) := fetchDecode s >>= fun i => plan i s

theorem step_of_decode_ok (he : s.stepEnabled = true) (h : decode (s.mem.drop s.ip) = .ok i) :
    step s = traced s (exec i s) := by
  simp [step, engineStep, he, fetchDecode_ok.2 h]

theorem step_of_decode_error {j : Reject} (he : s.stepEnabled = true) (h : decode (s.mem.drop s.ip) = .error j) :
    step s = traced s (.next (faultEntry (.ofReject s.ip j) s)) := by
  simp [step, engineStep, he, fetchDecode, h]

/-- An enabled step commits its plan or takes the fault it raises, and emits its trace record (R118, R119). -/
theorem step_eq_finish (he : s.stepEnabled = true) : step s = traced s (finish s (stepPlan s)) := by
  cases h : fetchDecode s with
  | ok i => simp [step, engineStep, he, stepPlan, h, exec_eq_finish]
  | error r => simp [step, engineStep, he, stepPlan, h, finish]

theorem step_of_stepPlan_ok (he : s.stepEnabled = true) (h : stepPlan s = .ok (e, o)) :
    step s = .next (emitTrace s (commit e o s)) := by
  rw [step_eq_finish he, h]; rfl

theorem step_of_stepPlan_error (he : s.stepEnabled = true) (h : stepPlan s = .error r) :
    step s = .next (emitTrace s (faultEntry r s)) := by
  rw [step_eq_finish he, h]; rfl

/-! ## What a step depends on (R125) -/

theorem checkAddress_of_mem_eq (h : s.mem = u.mem) (a : Int) : checkAddress a s = checkAddress a u := by
  rw [checkAddress, checkAddress, State.memLen, State.memLen, h]

theorem valueOf_of_mem_eq (h : s.mem = u.mem) (p : Param) : valueOf p s = valueOf p u := by
  cases p with
  | position a => exact memRead_of_mem_eq h a
  | immediate v => rfl

/-- The result rule looks at no parameter but WORD_BITS and OVERFLOW_POLICY (R120). -/
theorem fit_of_config_eq {c d : Config} (hbits : c.wordBits = d.wordBits)
    (hpolicy : c.overflowPolicy = d.overflowPolicy) (x : Int) : fit c x = fit d x := by
  simp only [fit, hbits, hpolicy]

theorem storePlan_of_mem_eq (h : s.mem = u.mem) {alu alu' : Int → Int → Except Raise Int} (halu : alu = alu')
    (s1 s2 : Param) (d : Int) : storePlan alu s1 s2 d s = storePlan alu' s1 s2 d u := by
  simp only [storePlan, valueOf_of_mem_eq h, addrOf, checkAddress_of_mem_eq h, halu]

theorem jumpPlan_of_mem_eq (h : s.mem = u.mem) (taken : Int → Bool) (c p : Param) :
    jumpPlan taken c p s = jumpPlan taken c p u := by
  simp only [jumpPlan, valueOf_of_mem_eq h, jumpTarget, checkAddress_of_mem_eq h]

/-- What an instruction is about to do depends on MEM, INQ, WORD_BITS and OVERFLOW_POLICY alone (R125). -/
theorem plan_of_inputs_eq (hmem : s.mem = u.mem) (hinq : s.inq = u.inq)
    (hbits : s.config.wordBits = u.config.wordBits)
    (hpolicy : s.config.overflowPolicy = u.config.overflowPolicy) (i : Instr) : plan i s = plan i u := by
  have hfit : fit s.config = fit u.config := funext (fit_of_config_eq hbits hpolicy)
  cases i with
  | add s1 s2 d => exact storePlan_of_mem_eq hmem (by funext x y; simp only [aluAdd, hfit]) s1 s2 d
  | mul s1 s2 d => exact storePlan_of_mem_eq hmem (by funext x y; simp only [aluMul, hfit]) s1 s2 d
  | input d => simp only [plan, inputPlan, addrOf, checkAddress_of_mem_eq hmem, State.inData, hinq]
  | output p => simp only [plan, outputPlan, valueOf_of_mem_eq hmem]
  | jumpIfTrue c p => exact jumpPlan_of_mem_eq hmem _ c p
  | jumpIfFalse c p => exact jumpPlan_of_mem_eq hmem _ c p
  | lessThan s1 s2 d => exact storePlan_of_mem_eq hmem rfl s1 s2 d
  | equals s1 s2 d => exact storePlan_of_mem_eq hmem rfl s1 s2 d
  | halt => rfl

theorem stepPlan_of_inputs_eq (hmem : s.mem = u.mem) (hip : s.ip = u.ip) (hinq : s.inq = u.inq)
    (hbits : s.config.wordBits = u.config.wordBits)
    (hpolicy : s.config.overflowPolicy = u.config.overflowPolicy) : stepPlan s = stepPlan u := by
  simp only [stepPlan, fetchDecode, hmem, hip, plan_of_inputs_eq hmem hinq hbits hpolicy]

/-- What a commit appends to OUTQ is in its effects alone (R118). -/
theorem outqAfter_eq_append (e : Effects) (q : List Int) : e.outqAfter q = q ++ e.push.toList := by
  obtain ⟨write, pop, _ | v⟩ := e
  · simp
  · rfl

/-- Settles O50: the two states have the same plan, and a commit and a fault entry make of it the same changes to the
fields named. -/
theorem stepDependsOnlyOnItsInputs : Obligations.StepDependsOnlyOnItsInputs := by
  intro s u hmem hip hinq hrun henable hbits hpolicy
  have hplan := stepPlan_of_inputs_eq hmem hip hinq hbits hpolicy
  have hstep : s.stepEnabled = u.stepEnabled := by simp only [State.stepEnabled, hrun, henable]
  cases he : s.stepEnabled with
  | false =>
    refine ⟨s, u, step_eq_self he, step_eq_self (hstep ▸ he), hmem, hip, hinq, hrun, ⟨[], by simp⟩, ?_⟩
    intro hrunning hfaulted
    rw [hrunning] at hfaulted
    cases hfaulted
  | true =>
    cases hp : stepPlan s with
    | error r =>
      refine ⟨_, _, step_of_stepPlan_error he hp, step_of_stepPlan_error (hstep ▸ he) (hplan ▸ hp), hmem, hip, hinq, rfl,
        ⟨[], by simp⟩, fun _ _ => ⟨rfl, hip, ?_, rfl⟩⟩
      simp [State.fetchedWord, hmem, hip]
    | ok p =>
      obtain ⟨e, o⟩ := p
      refine ⟨_, _, step_of_stepPlan_ok he hp, step_of_stepPlan_ok (hstep ▸ he) (hplan ▸ hp), by simp [hmem],
        by simp [hip], by simp [hinq], by simp [hrun], ⟨e.push.toList, by simp [outqAfter_eq_append]⟩, ?_⟩
      intro hrunning hfaulted
      exact absurd hfaulted (nextRunState_ne_faulted hrunning o)

/-! ## The result rule (R120 to R122) -/

theorem wrapToWord_eq (bits : Nat) (x : Int) : wrapToWord bits x = (x - wmin bits) % 2 ^ bits + wmin bits := by
  simp [wrapToWord]

/-- The word range spans `2^WORD_BITS` numbers: `WMIN = -2^(WORD_BITS-1)` is half of that below 0 (00_scope.md R5). -/
theorem two_mul_wmin {bits : Nat} (h : 1 ≤ bits) : 2 * wmin bits = -2 ^ bits := by
  obtain ⟨b, rfl⟩ := Nat.exists_eq_add_of_le' h
  simp only [wmin, Nat.add_sub_cancel]
  push_cast
  ring

theorem wmax_eq (bits : Nat) : wmax bits = -wmin bits - 1 := by
  simp only [wmax, wmin, neg_neg]

/-- Two words that differ by a multiple of `2^WORD_BITS` are the same word. -/
theorem eq_of_fitsWord_of_dvd_sub {bits : Nat} (h : 1 ≤ bits) {x y : Int} (hx : FitsWord bits x)
    (hy : FitsWord bits y) (hdvd : (2 : Int) ^ bits ∣ x - y) : x = y := by
  have hspan := two_mul_wmin h
  have hmax := wmax_eq bits
  have habs : |x - y| < 2 ^ bits := by
    rw [abs_lt]
    simp only [FitsWord] at hx hy
    omega
  have := Int.eq_zero_of_abs_lt_dvd hdvd habs
  omega

/-- The wrapped result is the one word congruent to the exact one (R120). -/
theorem dvd_sub_iff_eq_wrapToWord {bits : Nat} (h : 1 ≤ bits) {v : Int} (hv : FitsWord bits v) (x : Int) :
    (2 : Int) ^ bits ∣ x - v ↔ v = wrapToWord bits x := by
  constructor
  · intro hdvd
    refine eq_of_fitsWord_of_dvd_sub h hv (wrapToWord_fits h x) ?_
    have := Int.dvd_sub (dvd_sub_wrapToWord bits x) hdvd
    simpa using this
  · rintro rfl
    exact dvd_sub_wrapToWord bits x

/-- A valid word has at least one bit. -/
theorem one_le_wordBits {c : Config} (hc : c.Valid) : 1 ≤ c.wordBits := le_trans (by decide) hc.1

/-- Settles O13: the three branches of the rule, and the wrapped result is the one congruent word. -/
theorem fitRule : Obligations.FitRule := by
  intro c x hc
  split_ifs with hx
  · exact fit_of_fits hx
  · cases hp : c.overflowPolicy with
    | fault => exact fit_of_overflow hx hp
    | wrap =>
      simp only [← wrapToWord_eq]
      exact ⟨fit_of_wrap hx hp, fun v hv => dvd_sub_iff_eq_wrapToWord (one_le_wordBits hc) hv x⟩

/-- Under the policy fault, `fit` overflows exactly outside the word range (R120). -/
theorem fit_eq_overflow_iff {c : Config} (hp : c.overflowPolicy = .fault) {x : Int} :
    fit c x = .error .arithmeticOverflow ↔ ¬ FitsWord c.wordBits x :=
  ⟨fun h => (fit_error h).2.1, fun h => fit_of_overflow h hp⟩

/-- Words of opposite signs have a sum that is a word (R121). -/
theorem sameSign_of_add_overflows {bits : Nat} {x y : Int} (hx : FitsWord bits x) (hy : FitsWord bits y)
    (h : ¬ FitsWord bits (x + y)) : 0 ≤ x ∧ 0 ≤ y ∨ x < 0 ∧ y < 0 := by
  simp only [FitsWord] at hx hy h
  omega

/-- Under wrap, `fit` answers the word congruent to an exact result that overflows (R120). -/
theorem fit_wrap_of_dvd_sub {c : Config} (hbits : 1 ≤ c.wordBits) (hp : c.overflowPolicy = .wrap) {x v : Int}
    (hx : ¬ FitsWord c.wordBits x) (hv : FitsWord c.wordBits v) (h : (2 : Int) ^ c.wordBits ∣ x - v) :
    fit c x = .ok v := by
  rw [fit_of_wrap hx hp, ← (dvd_sub_iff_eq_wrapToWord hbits hv x).1 h]

/-- Settles O14: `alu_add` is `fit` of the sum, which leaves the word range only where both operands have one sign. -/
theorem addRule : Obligations.AddRule := by
  refine ⟨fun c x y => ⟨rfl, by rw [aluAdd, aluAdd, add_comm]⟩, fun c x y _ hx hy hp => ?_, fun c hc => ⟨?_, ?_, ?_⟩⟩
  · rw [aluAdd, fit_eq_overflow_iff hp]
    exact ⟨fun h => ⟨sameSign_of_add_overflows hx hy h, h⟩, fun h => h.2⟩
  · exact fun hp => fit_of_overflow (by rw [hc]; decide) hp
  · intro hp
    exact fit_wrap_of_dvd_sub (by rw [hc]; decide) hp (by rw [hc]; decide) (by rw [hc]; decide) (by rw [hc]; decide)
  · exact fit_of_fits (fitsWord_zero _)

theorem fitsWord_wmin (bits : Nat) : FitsWord bits (wmin bits) := by
  have hzero := fitsWord_zero bits
  exact ⟨le_rfl, hzero.1.trans hzero.2⟩

/-- The one product of a word with -1 that is no word (R122). -/
theorem wmin_mul_neg_one_overflows (bits : Nat) : ¬ FitsWord bits (wmin bits * -1) := by
  have hmax := wmax_eq bits
  simp only [FitsWord]
  omega

/-- Settles O15: `alu_mul` is `fit` of the product; `WMIN * -1` is `2^WORD_BITS` above `WMIN`. -/
theorem mulRule : Obligations.MulRule := by
  refine ⟨fun _ _ _ => rfl, fun c x hc hx => ?_⟩
  have hbits := one_le_wordBits hc
  have hdvd : (2 : Int) ^ c.wordBits ∣ wmin c.wordBits * -1 - wmin c.wordBits := by
    have hspan := two_mul_wmin hbits
    exact ⟨1, by omega⟩
  have hover := wmin_mul_neg_one_overflows c.wordBits
  have hmin := fitsWord_wmin c.wordBits
  refine ⟨?_, ?_, ?_, fit_of_overflow hover, fun hp => fit_wrap_of_dvd_sub hbits hp hover hmin hdvd, ?_⟩
  · rw [aluMul, mul_zero, fit_of_fits (fitsWord_zero _)]
  · rw [aluMul, zero_mul, fit_of_fits (fitsWord_zero _)]
  · rw [aluMul, mul_one, fit_of_fits hx]
  · rw [aluMul, mul_one, fit_of_fits hmin]

/-! ## Where an instruction faults on an address (R114 to R116) -/

/-- Sources are read in order, and the first one out of range stops it with its address (R114). -/
theorem mapM_valueOf_outOfRange {before : List Param} {a : Int} (after : List Param)
    (hbefore : ∀ p ∈ before, ∃ v, Reads s p v) (ha : OutOfRange s a) :
    (before ++ .position a :: after).mapM (valueOf · s) = .error (.outOfBoundsAddress a) := by
  induction before with
  | nil => simp [valueOf_outOfRange ha, -bind_pure_comp]
  | cons p ps ih =>
    obtain ⟨v, hv⟩ := hbefore p List.mem_cons_self
    have hrest := ih fun q hq => hbefore q (List.mem_cons_of_mem p hq)
    simp [valueOf_reads hv, hrest, -bind_pure_comp]

/-- A source that faults is the first one, or the second after a first that is readable (R114). -/
theorem mapM_valueOf_pair_error {p q : Param} (h : [p, q].mapM (valueOf · s) = .error r) :
    valueOf p s = .error r ∨ ∃ v, valueOf p s = .ok v ∧ valueOf q s = .error r := by
  cases hp : valueOf p s with
  | error r' => exact .inl (by simpa [hp] using h)
  | ok v =>
    cases hq : valueOf q s with
    | error r' => exact .inr ⟨v, rfl, by simpa [hp, hq] using h⟩
    | ok w => simp [hp, hq] at h

theorem storePlan_of_sources_error {alu : Int → Int → Except Raise Int} {s1 s2 : Param} {d : Int}
    (h : [s1, s2].mapM (valueOf · s) = .error r) : storePlan alu s1 s2 d s = .error r := by
  obtain h1 | ⟨v, h1, h2⟩ := mapM_valueOf_pair_error h
  · simp [storePlan, h1, -bind_pure_comp]
  · simp [storePlan, h1, h2, -bind_pure_comp]

theorem jumpPlan_of_sources_error {taken : Int → Bool} {c p : Param}
    (h : [c, p].mapM (valueOf · s) = .error r) : jumpPlan taken c p s = .error r := by
  obtain h1 | ⟨v, h1, h2⟩ := mapM_valueOf_pair_error h
  · simp [jumpPlan, h1, -bind_pure_comp]
  · simp [jumpPlan, h1, h2, -bind_pure_comp]

theorem outputPlan_of_sources_error {p : Param} (h : [p].mapM (valueOf · s) = .error r) :
    outputPlan p s = .error r := by
  cases hp : valueOf p s with
  | error r' => simpa [outputPlan, hp, -bind_pure_comp] using h
  | ok v => simp [hp] at h

/-- An instruction reads all its sources before it does anything else, so a fault among them is its own (R114, R116). -/
theorem plan_of_sources_error (h : i.sources.mapM (valueOf · s) = .error r) : plan i s = .error r := by
  cases i with
  | add => exact storePlan_of_sources_error h
  | mul => exact storePlan_of_sources_error h
  | input => cases h
  | output => exact outputPlan_of_sources_error h
  | jumpIfTrue => exact jumpPlan_of_sources_error h
  | jumpIfFalse => exact jumpPlan_of_sources_error h
  | lessThan => exact storePlan_of_sources_error h
  | equals => exact storePlan_of_sources_error h
  | halt => cases h

/-- Settles O26: every instruction reads its sources first and in order, and the first one out of range stops it. -/
theorem sourceOutOfRangeFaults : Obligations.SourceOutOfRangeFaults := by
  intro s i before after a hsources hbefore ha
  refine exec_of_plan_error (plan_of_sources_error ?_)
  rw [hsources]
  exact mapM_valueOf_outOfRange after hbefore ha

/-- An instruction with a destination is IN or of the storing shape (30_encoding.md R84). -/
theorem input_or_store_of_dest {d : Int} (h : i.dest = some d) :
    i = .input d ∨ ∃ s1 s2, i.sources = [s1, s2] ∧
      i ∈ [Instr.add s1 s2 d, .mul s1 s2 d, .lessThan s1 s2 d, .equals s1 s2 d] := by
  cases i <;> cases h <;> simp [Instr.sources]

/-- Settles O27: the storing shape and IN both check the destination right after the sources. -/
theorem destinationOutOfRangeFaults : Obligations.DestinationOutOfRangeFaults := by
  intro s i d hd hsources ho
  refine exec_of_plan_error ?_
  obtain rfl | ⟨s1, s2, hs, hi⟩ := input_or_store_of_dest hd
  · simp [plan, inputPlan, addrOf_outOfRange ho, -bind_pure_comp]
  · obtain ⟨alu, hplan⟩ := plan_eq_storePlan hi s
    obtain ⟨v1, h1⟩ := hsources s1 (by simp [hs])
    obtain ⟨v2, h2⟩ := hsources s2 (by simp [hs])
    rw [hplan]
    simp [storePlan, valueOf_reads h1, valueOf_reads h2, addrOf_outOfRange ho, -bind_pure_comp]

/-! ## The engine never waits (R127) -/

theorem step_answers (s : State) : ∃ t, step s = .next t := by
  obtain ⟨-, h⟩ | ⟨-, _, -, h⟩ | ⟨-, _, _, _, -, -, h⟩ | ⟨-, _, _, -, -, h⟩ := step_cases s <;> exact ⟨_, h⟩

/-- Settles O40: a step answers in each of its cases, and one that does not fault counts in TICK. -/
theorem stepAlwaysAnswersNext : Obligations.StepAlwaysAnswersNext := by
  intro s
  obtain ⟨t, h⟩ := step_answers s
  refine ⟨t, h, fun he => ?_⟩
  have htick := tickCountsCompletedSteps s t he h
  split_ifs at htick with hfaulted
  · exact .inl hfaulted
  · exact .inr htick

/-! ## A step that faults (R119) -/

/-- An OutOfBoundsAddress carries an address that is out of range (10_state.md R31). -/
def AddressOutOfRange (s : State) (r : Raise) : Prop := ∀ a, r = .outOfBoundsAddress a → OutOfRange s a

theorem addressOutOfRange_of_outOfRange {a : Int} (h : OutOfRange s a) : AddressOutOfRange s (.outOfBoundsAddress a) :=
  fun _ ha => by cases ha; exact h

/-- The cell a rejected decode misses is past the last one (30_encoding.md R89, 40_engine.md R112). -/
theorem length_le_of_missingCell {m : List Int} {n : Nat} (h : decode m = .error (.missingCell n)) : m.length ≤ n := by
  unfold decode at h
  split at h
  · exact Nat.zero_le n
  · split at h
    · cases h
    · split at h
      · cases h
      · split_ifs at h <;> cases h
        exact le_rfl

theorem ofReject_addressOutOfRange {j : Reject} (h : decode (s.mem.drop s.ip) = .error j) :
    AddressOutOfRange s (.ofReject s.ip j) := by
  cases j with
  | missingCell n =>
    have hlen := length_le_of_missingCell h
    rw [List.length_drop] at hlen
    refine addressOutOfRange_of_outOfRange (.inr ?_)
    omega
  | unknownOpcode w => exact nofun
  | illegalMode w => exact nofun
  | invalidWriteTarget => exact nofun

theorem storePlan_addressOutOfRange {alu : Int → Int → Except Raise Int} {s1 s2 : Param} {d : Int}
    (halu : ∀ x y a, alu x y ≠ .error (.outOfBoundsAddress a)) (h : storePlan alu s1 s2 d s = .error r) :
    AddressOutOfRange s r := by
  obtain ⟨_, _, _, _, -, -, -, -, hp⟩ | ⟨a, ho, hp⟩ | ⟨v1, v2, _, r', -, -, -, hr, hp⟩ := storePlan_cases alu s1 s2 d s <;>
    rw [hp] at h <;> cases h
  · exact addressOutOfRange_of_outOfRange ho
  · exact fun a ha => absurd (ha ▸ hr) (halu v1 v2 a)

theorem jumpPlan_addressOutOfRange {taken : Int → Bool} {c p : Param} (h : jumpPlan taken c p s = .error r) :
    AddressOutOfRange s r := by
  obtain ⟨_, _, _, -, -, -, -, hp⟩ | ⟨_, _, -, -, -, hp⟩ | ⟨a, ho, hp⟩ := jumpPlan_cases taken c p s <;>
    rw [hp] at h <;> cases h
  exact addressOutOfRange_of_outOfRange ho

theorem fit_ne_outOfBounds (c : Config) (x a : Int) : fit c x ≠ .error (.outOfBoundsAddress a) := by
  intro h
  cases (fit_error h).1

/-- An instruction raises OutOfBoundsAddress for an address out of range only (R114, R115, 43_jumps.md R162). -/
theorem plan_addressOutOfRange (h : plan i s = .error r) : AddressOutOfRange s r := by
  cases i with
  | add => exact storePlan_addressOutOfRange (fun _ _ => fit_ne_outOfBounds _ _) h
  | mul => exact storePlan_addressOutOfRange (fun _ _ => fit_ne_outOfBounds _ _) h
  | lessThan => exact storePlan_addressOutOfRange (fun _ _ _ ha => by cases ha) h
  | equals => exact storePlan_addressOutOfRange (fun _ _ _ ha => by cases ha) h
  | jumpIfTrue => exact jumpPlan_addressOutOfRange h
  | jumpIfFalse => exact jumpPlan_addressOutOfRange h
  | halt => cases h
  | output p =>
    rw [plan] at h
    obtain ⟨_, -, hp⟩ | ⟨a, ho, hp⟩ := outputPlan_cases p s <;> rw [hp] at h <;> cases h
    exact addressOutOfRange_of_outOfRange ho
  | input d =>
    rw [plan] at h
    obtain ⟨_, _, _, -, -, hp⟩ | ⟨ho, hp⟩ | ⟨_, -, -, hp⟩ := inputPlan_cases d s <;> rw [hp] at h <;> cases h
    · exact addressOutOfRange_of_outOfRange ho
    · exact nofun

/-- An enabled step that ends Faulted took one fault entry, and an address it records is out of range (R119). -/
theorem faulted_step_eq_faultEntry (he : s.stepEnabled = true) (h : step s = .next t) (hf : t.runState = .faulted) :
    ∃ r, AddressOutOfRange s r ∧ t = emitTrace s (faultEntry r s) := by
  obtain ⟨hne, -⟩ | ⟨-, j, hj, hs⟩ | ⟨-, i, e, o, -, -, hs⟩ | ⟨-, i, r, -, hp, hs⟩ := step_cases s
  · rw [he] at hne
    cases hne
  · rw [hs] at h
    cases h
    exact ⟨_, ofReject_addressOutOfRange hj, rfl⟩
  · rw [hs] at h
    cases h
    exact absurd hf (nextRunState_ne_faulted ((stepEnabled_iff s).1 he).1 o)
  · rw [hs] at h
    cases h
    exact ⟨r, plan_addressOutOfRange hp, rfl⟩

theorem eq_outOfBounds_of_cause (h : r.cause = .outOfBoundsAddress) : r = .outOfBoundsAddress r.addr := by
  cases r with
  | outOfBoundsAddress a => rfl
  | _ => cases h

/-- Settles O41: a step that ends Faulted is one fault entry, which writes the fault registers and RUN_STATE alone. -/
theorem faultedStepCommitsNothing : Obligations.FaultedStepCommitsNothing := by
  intro s t he h hf
  obtain ⟨r, hr, rfl⟩ := faulted_step_eq_faultEntry he h hf
  refine ⟨r.cause, r.addr, cause_ne_none r, fun hc => hr _ (eq_outOfBounds_of_cause hc), addr_eq_zero r, ?_⟩
  simp [emitTrace, faultEntry, State.fetchedWord]

/-! ## Where a step that does not fault goes (R117) -/

theorem not_jumpTaken_of_dest {d : Int} (h : i.dest = some d) (p : Param) : ¬ JumpTaken s i p := by
  rintro ⟨c, v, -, ⟨rfl, -⟩ | ⟨rfl, -⟩⟩ <;> cases h

/-- A jump has one target. -/
theorem jumpTaken_target_unique {p q : Param} (hp : JumpTaken s i p) (hq : JumpTaken s i q) : q = p := by
  obtain ⟨_, _, -, ⟨rfl, -⟩ | ⟨rfl, -⟩⟩ := hp <;> obtain ⟨_, _, -, ⟨h, -⟩ | ⟨h, -⟩⟩ := hq <;> cases h <;> rfl

/-- The outcome of an instruction, with the reason for it: HALT, a taken jump to its target's value, or an advance by the
width (R117). -/
theorem plan_next_cases (h : plan i s = .ok (e, o)) :
    (i = .halt ∧ o = .halt) ∨
      (∃ (p : Param) (k : Nat), JumpTaken s i p ∧ Reads s p (k : Int) ∧ k < s.mem.length ∧ o = .jump k) ∨
      (i ≠ .halt ∧ (∀ p, ¬ JumpTaken s i p) ∧ o = .advance i.width) := by
  obtain ⟨d, _, _, hd, -, hw, -, rfl, -⟩ | ⟨_, _, _, _, rfl, -, -, -, rfl⟩ | ⟨_, _, rfl, -, -, rfl⟩ |
    ⟨_, p, _, _, hi, -, hp, -, ⟨hnot, rfl⟩ | ⟨k, ⟨rfl, hk⟩, rfl, htaken⟩⟩ | ⟨hi, -, ho⟩ := plan_ok_cases h
  · exact .inr (.inr ⟨(by rintro rfl; cases hd), not_jumpTaken_of_dest hd, by rw [hw]⟩)
  · exact .inr (.inr ⟨nofun, not_jumpTaken_of_dest rfl, rfl⟩)
  · exact .inr (.inr ⟨nofun, by simp [JumpTaken], rfl⟩)
  · obtain rfl | rfl := hi <;> exact .inr (.inr ⟨nofun, hnot, rfl⟩)
  · exact .inr (.inl ⟨p, k, htaken, hp, hk, rfl⟩)
  · exact .inl ⟨hi, ho⟩

theorem not_jumpTaken_halt (p : Param) : ¬ JumpTaken s .halt p := by
  simp [JumpTaken]

/-- The outcome Halted is HALT's alone (R117, 45_halt.md R180). -/
theorem plan_halts_iff (h : plan i s = .ok (e, o)) : o = .halt ↔ i = .halt := by
  obtain ⟨rfl, rfl⟩ | ⟨p, _, hp, -, -, rfl⟩ | ⟨hi, -, rfl⟩ := plan_next_cases h
  · simp
  · simp only [reduceCtorEq, false_iff]
    rintro rfl
    exact not_jumpTaken_halt p hp
  · simp [hi]

theorem nextRunState_eq_halted_iff {q : RunState} (hq : q = .running) : o.nextRunState q = .halted ↔ o = .halt := by
  subst hq
  cases o <;> simp

/-- Settles O42: a fault makes the run Faulted, HALT never faults, and only HALT's commit halts. -/
theorem onlyHaltHalts : Obligations.OnlyHaltHalts := by
  intro s t he h
  obtain ⟨hne, -⟩ | ⟨-, j, hj, hs⟩ | ⟨-, i, e, o, hi, hp, hs⟩ | ⟨-, i, r, hi, hp, hs⟩ := step_cases s
  · rw [he] at hne
    cases hne
  · rw [hs] at h
    cases h
    simp [hj]
  · rw [hs] at h
    cases h
    simpa [hi, ← plan_halts_iff hp] using nextRunState_eq_halted_iff ((stepEnabled_iff s).1 he).1
  · rw [hs] at h
    cases h
    simp only [emitTrace_runState, faultEntry_runState, reduceCtorEq, hi, Except.ok.injEq, false_iff]
    rintro rfl
    cases hp

/-- An enabled step that does not end Faulted committed the plan of the decoded instruction (R118). -/
theorem completed_step_eq_commit (he : s.stepEnabled = true) (hi : decode (s.mem.drop s.ip) = .ok i)
    (h : step s = .next t) (hf : t.runState ≠ .faulted) :
    ∃ e o, plan i s = .ok (e, o) ∧ t = emitTrace s (commit e o s) := by
  obtain ⟨e, o, hp, hx⟩ | ⟨r, -, hx⟩ := exec_cases i s <;> rw [step_of_decode_ok he hi, hx] at h <;> cases h
  · exact ⟨e, o, hp, rfl⟩
  · exact absurd rfl hf

/-- Settles O43: the next ip is that of the outcome, which is HALT's, the taken jump's or an advance by the width. -/
theorem nextIpRule : Obligations.NextIpRule := by
  intro s t i he hi h hf
  obtain ⟨e, o, hp, rfl⟩ := completed_step_eq_commit he hi h hf
  obtain ⟨rfl, rfl⟩ | ⟨p, k, htaken, hread, hk, rfl⟩ | ⟨hne, hnot, rfl⟩ := plan_next_cases hp
  · exact ⟨fun _ => rfl, fun q hq => absurd hq (not_jumpTaken_halt q), fun hne => absurd rfl hne⟩
  · refine ⟨?_, fun q hq => ?_, fun _ hnot => absurd htaken (hnot p)⟩
    · rintro rfl
      exact absurd htaken (not_jumpTaken_halt p)
    · obtain rfl := jumpTaken_target_unique htaken hq
      exact ⟨hread, hk⟩
  · exact ⟨fun hi => absurd hi hne, fun q hq => absurd hq (hnot q), fun _ _ => rfl⟩

/-! ## Operands and comparisons -/

/-- Settles O12: an Immediate is its own value, and every other case is the one address check. -/
theorem operandRule : Obligations.OperandRule := by
  refine ⟨fun _ _ => rfl, fun s k v hv => ?_, fun s a ho => ?_⟩
  · obtain ⟨hk, -⟩ := List.getElem?_eq_some_iff.1 hv
    exact ⟨memRead_of_getElem? hv, checkAddress_inRange hk, checkAddress_inRange hk⟩
  · exact ⟨valueOf_outOfRange ho, addrOf_outOfRange ho, checkAddress_outOfRange ho⟩

/-- Settles O16: each comparison by its two branches; WMIN is negative and WMAX is not. -/
theorem comparisonRule : Obligations.ComparisonRule := by
  refine ⟨fun x y => ⟨fun h => if_pos h, fun h => if_neg h.not_gt⟩,
    fun x y => ⟨fun h => if_pos h, fun h => if_neg h⟩, fun x => decide_eq_true_iff, rfl,
    fun c hc => ⟨if_pos ?_, fun x y => ?_⟩⟩
  · have hbits := two_mul_wmin (one_le_wordBits hc)
    have hpos : (0 : Int) < 2 ^ c.wordBits := by positivity
    have hmax := wmax_eq c.wordBits
    omega
  · have hbits : 2 ≤ c.wordBits := le_trans (by decide) hc.1
    exact ⟨aluLt_fits hbits x y, aluEq_fits hbits x y⟩

/-! ## The step by what it decodes -/

/-- Without a trace port no record is added (60_exceptions.md R217). -/
theorem traced_of_absent (h : s.config.tracePort = .absent) (a : Host.Outcome State Fault Refusal) : traced s a = a := by
  cases a with
  | next t => simp only [traced, emitTrace, traceAfter, h]
  | fault r => rfl
  | refused r => rfl

/-- Settles O36: the step of a decoded instruction is its exec, traced. -/
theorem stepRunsDecodedInstruction : Obligations.StepRunsDecodedInstruction := by
  intro s i hrun henable hi
  have hstep := step_of_decode_ok ((stepEnabled_iff s).2 ⟨hrun, henable⟩) hi
  exact ⟨hstep, fun habsent => hstep.trans (traced_of_absent habsent _)⟩

/-- Settles O37: the step of a rejected decode is the fault entry of its raise, traced. -/
theorem stepFaultsOnRejectedDecode : Obligations.StepFaultsOnRejectedDecode := by
  intro s j hrun henable hj
  rw [step_of_decode_error ((stepEnabled_iff s).2 ⟨hrun, henable⟩) hj]
  cases j <;> rfl

/-- Settles O38: either disjunct leaves the step not enabled. -/
theorem stepNotEnabledKeepsState : Obligations.StepNotEnabledKeepsState := by
  intro s h
  refine step_eq_self ?_
  rw [← Bool.not_eq_true, stepEnabled_iff]
  rintro ⟨hrun, henable⟩
  obtain h | h := h
  · exact h hrun
  · exact absurd henable (by simp [h])

end Sys2Proof.Machine
end

section
/-! PROOFS. ADD and MUL (41_arithmetic.md): each completes with its exact result where that fits a word. -/

namespace Sys2Proof.Machine

/-- Settles O17: a sum that fits is the ALU's answer unchanged, and the storing shape writes it, whatever the sources. -/
theorem addCompletes : Obligations.AddCompletes := by
  intro s s1 s2 dest v1 v2 k h1 h2 hk hfit
  have hsum : aluAdd s.config v1 v2 = .ok (v1 + v2) := fit_of_fits hfit
  exact exec_store_of_reads rfl h1 h2 hk hsum

/-- Settles O18: a product that fits is the ALU's answer unchanged, and the storing shape writes it. -/
theorem mulCompletes : Obligations.MulCompletes := by
  intro s s1 s2 dest v1 v2 k h1 h2 hk hfit
  have hprod : aluMul s.config v1 v2 = .ok (v1 * v2) := fit_of_fits hfit
  exact exec_store_of_reads rfl h1 h2 hk hprod

end Sys2Proof.Machine
end

section
/-! PROOFS. IN and OUT (42_io.md): what each plans when its operand names a cell or reads, the next state it answers, and
what it leaves unchanged. -/

namespace Sys2Proof.Machine

variable {s : State} {dest v : Int} {q : List Int} {k : Nat} {src : Param}

/-! ## The plans by their operands and the channel -/

/-- With a value waiting, IN writes it and removes it from INQ (42_io.md R150, R152). -/
theorem inputPlan_of_inq_cons (hk : NamesCell s dest k) (hq : s.inq = v :: q) :
    inputPlan dest s = .ok ({ write := some (k, v), pop := true }, .advance 2) := by
  simp [inputPlan, addrOf_namesCell hk, State.inData, hq, -bind_pure_comp]

/-- With no value waiting, IN raises InputExhausted after the check of its destination (42_io.md R150). -/
theorem inputPlan_of_inq_nil (hk : NamesCell s dest k) (hq : s.inq = []) :
    inputPlan dest s = .error .inputExhausted := by
  simp [inputPlan, addrOf_namesCell hk, State.inData, hq, -bind_pure_comp]

/-- OUT appends the value its source reads as (42_io.md R151, R153). -/
theorem outputPlan_of_reads (h : Reads s src v) : outputPlan src s = .ok ({ push := some v }, .advance 2) := by
  simp [outputPlan, valueOf_reads h, -bind_pure_comp]

/-! ## Completion and the empty channel -/

/-- Settles O21: IN plans its write and its pop, and the pop leaves the rest of INQ. -/
theorem inputCompletes : Obligations.InputCompletes := by
  intro s dest v q k hk hq
  obtain rfl : inPop s.inq = q := by rw [hq]; rfl
  exact exec_of_plan_ok (i := .input dest) (inputPlan_of_inq_cons hk hq)

/-- Settles O22: OUT plans the value its source reads as, and the commit appends it. -/
theorem outputCompletes : Obligations.OutputCompletes := by
  intro s src v hv
  exact exec_of_plan_ok (i := .output src) (outputPlan_of_reads hv)

/-- Settles O28: IN raises the fault once its destination has passed the check, and its entry is the whole effect. -/
theorem emptyInputFaults : Obligations.EmptyInputFaults := by
  intro s dest k hk hq
  exact exec_of_plan_error (i := .input dest) (inputPlan_of_inq_nil hk hq)

/-! ## Frames -/

/-- IN plans the write of one value to the destination's cell and the pop, or raises a fault. -/
theorem inputPlan_write_or_raise (dest : Int) (s : State) :
    (∃ k v, NamesCell s dest k ∧ inputPlan dest s = .ok ({ write := some (k, v), pop := true }, .advance 2)) ∨
      ∃ r, inputPlan dest s = .error r := by
  obtain ⟨k, v, _, hk, -, hp⟩ | ⟨-, hp⟩ | ⟨_, -, -, hp⟩ := inputPlan_cases dest s
  · exact .inl ⟨k, v, hk, hp⟩
  · exact .inr ⟨_, hp⟩
  · exact .inr ⟨_, hp⟩

/-- Settles O32: IN commits one write to the destination's cell and the pop, or its fault entry writes no memory and
leaves INQ. -/
theorem inputFrame : Obligations.InputFrame := by
  intro dest s t h
  obtain ⟨k, v, hk, hp⟩ | ⟨r, hp⟩ := inputPlan_write_or_raise dest s
  · rw [exec_of_plan_ok (i := .input dest) hp] at h
    cases h
    exact ⟨rfl, rfl, rfl, rfl, .inl ⟨rfl, rfl, rfl⟩, readsKeptBut_of_write hk rfl⟩
  · rw [exec_of_plan_error (i := .input dest) hp] at h
    cases h
    exact ⟨rfl, rfl, rfl, rfl, .inr ⟨r, rfl⟩, readsKeptBut_of_mem_eq rfl⟩

/-- Settles O33: OUT commits one value to OUTQ and no write, or its fault entry writes no memory. -/
theorem outputFrame : Obligations.OutputFrame := by
  intro src s t h
  obtain ⟨v, -, hp⟩ | ⟨a, -, hp⟩ := outputPlan_cases src s
  · rw [exec_of_plan_ok (i := .output src) hp] at h
    cases h
    exact ⟨rfl, rfl, rfl, rfl, .inl ⟨rfl, rfl, v, rfl⟩, memRead_of_mem_eq rfl⟩
  · rw [exec_of_plan_error (i := .output src) hp] at h
    cases h
    exact ⟨rfl, rfl, rfl, rfl, .inr ⟨_, rfl⟩, memRead_of_mem_eq rfl⟩

end Sys2Proof.Machine
end

section
/-! PROOFS. JT and JF (43_jumps.md): a jump that is taken, one that is not, one taken out of range, and their frame. -/

namespace Sys2Proof.Machine

variable {s : State} {i : Instr} {taken : Int → Bool} {cmp target : Param} {v1 v2 : Int} {k : Nat}

/-! ## The test and the target check -/

theorem aluNz_of_ne_zero (h : v1 ≠ 0) : aluNz v1 = true := decide_eq_true h

theorem aluNz_of_eq_zero (h : v1 = 0) : aluNz v1 = false := decide_eq_false (not_not_intro h)

theorem jumpTarget_namesCell (h : NamesCell s v2 k) : jumpTarget v2 s = .ok k := by
  rw [h.1]; exact checkAddress_inRange h.2

theorem jumpTarget_outOfRange (h : OutOfRange s v2) : jumpTarget v2 s = .error (.outOfBoundsAddress v2) :=
  checkAddress_outOfRange h

/-! ## What a conditional jump with readable sources does, whatever its test -/

/-- Taken to an existing cell, a jump writes IP alone and counts (43_jumps.md R162). -/
theorem exec_jump_taken (hi : plan i s = jumpPlan taken cmp target s) (h1 : Reads s cmp v1) (h2 : Reads s target v2)
    (ht : taken v1 = true) (hk : NamesCell s v2 k) :
    exec i s = .next { s with ip := k, tick := (s.tick + 1) % 2 ^ s.config.tickBits } := by
  have hp : plan i s = .ok ({}, .jump k) := by
    rw [hi, jumpPlan_of_reads h1 h2, if_pos ht, jumpTarget_namesCell hk]
  exact exec_of_plan_ok hp

/-- Not taken, a jump advances by 3 and its target's value is not checked (43_jumps.md R162). -/
theorem exec_jump_not_taken (hi : plan i s = jumpPlan taken cmp target s) (h1 : Reads s cmp v1)
    (h2 : Reads s target v2) (ht : taken v1 = false) :
    exec i s = .next { s with ip := s.ip + 3, tick := (s.tick + 1) % 2 ^ s.config.tickBits } := by
  have hp : plan i s = .ok ({}, .advance 3) := by
    rw [hi, jumpPlan_of_reads h1 h2, if_neg (by simp [ht])]
  exact exec_of_plan_ok hp

/-- Taken to a value that names no cell, a jump faults with that value (43_jumps.md R162). -/
theorem exec_jump_outOfRange (hi : plan i s = jumpPlan taken cmp target s) (h1 : Reads s cmp v1)
    (h2 : Reads s target v2) (ht : taken v1 = true) (ho : OutOfRange s v2) :
    exec i s = .next (faultEntry (.outOfBoundsAddress v2) s) := by
  have hp : plan i s = .error (.outOfBoundsAddress v2) := by
    rw [hi, jumpPlan_of_reads h1 h2, if_pos ht, jumpTarget_outOfRange ho]
  exact exec_of_plan_error hp

/-! ## Completion and the target out of range -/

/-- Settles O23: JT is the conditional jump whose test is that `cmp` is not zero. -/
theorem jumpIfTrueCompletes : Obligations.JumpIfTrueCompletes := by
  intro s cmp target v1 v2 h1 h2
  constructor
  · intro k hne hk
    exact exec_jump_taken rfl h1 h2 (aluNz_of_ne_zero hne) hk
  · intro hzero
    exact exec_jump_not_taken rfl h1 h2 (aluNz_of_eq_zero hzero)

/-- Settles O24: JF is the conditional jump whose test is that `cmp` is zero. -/
theorem jumpIfFalseCompletes : Obligations.JumpIfFalseCompletes := by
  intro s cmp target v1 v2 h1 h2
  constructor
  · intro k hzero hk
    exact exec_jump_taken rfl h1 h2 (by simp [aluNz_of_eq_zero hzero]) hk
  · intro hne
    exact exec_jump_not_taken rfl h1 h2 (by simp [aluNz_of_ne_zero hne])

/-- Settles O29: each jump is taken under its own test, and a taken jump checks its target. -/
theorem takenJumpOutOfRangeFaults : Obligations.TakenJumpOutOfRangeFaults := by
  intro s cmp target v1 v2 h1 h2 ho
  constructor
  · intro hne
    exact exec_jump_outOfRange rfl h1 h2 (aluNz_of_ne_zero hne) ho
  · intro hzero
    exact exec_jump_outOfRange rfl h1 h2 (by simp [aluNz_of_eq_zero hzero]) ho

/-! ## Frame -/

/-- JT and JF are the conditional jump, each with its own test (43_jumps.md R160, R161). -/
theorem plan_eq_jumpPlan (hi : i ∈ [Instr.jumpIfTrue cmp target, .jumpIfFalse cmp target]) (s : State) :
    ∃ taken, plan i s = jumpPlan taken cmp target s := by
  simp only [List.mem_cons, List.not_mem_nil, or_false] at hi
  obtain rfl | rfl := hi <;> exact ⟨_, rfl⟩

/-- A conditional jump plans no effect and an outcome that leaves RUN_STATE, or raises a fault (40_engine.md R117). -/
theorem jumpPlan_noEffects_or_raise (taken : Int → Bool) (cmp target : Param) (s : State) :
    (∃ o : StepOutcome, (∀ q, o.nextRunState q = q) ∧ jumpPlan taken cmp target s = .ok ({}, o)) ∨
      ∃ r, jumpPlan taken cmp target s = .error r := by
  obtain ⟨_, _, k, -, -, -, -, hp⟩ | ⟨_, _, -, -, -, hp⟩ | ⟨a, -, hp⟩ := jumpPlan_cases taken cmp target s
  · exact .inl ⟨.jump k, nextRunState_jump k, hp⟩
  · exact .inl ⟨.advance 3, nextRunState_advance 3, hp⟩
  · exact .inr ⟨_, hp⟩

/-- Settles O34: a jump commits no effect, taken or not, or its fault entry writes no memory. -/
theorem jumpFrame : Obligations.JumpFrame := by
  intro i cmp target s t hi h
  obtain ⟨taken, hplan⟩ := plan_eq_jumpPlan hi s
  obtain ⟨o, hrun, hp⟩ | ⟨r, hp⟩ := jumpPlan_noEffects_or_raise taken cmp target s
  · rw [exec_of_plan_ok (hplan.trans hp)] at h
    cases h
    exact ⟨rfl, rfl, rfl, rfl, rfl, .inl ⟨hrun s.runState, rfl⟩, memRead_of_mem_eq rfl⟩
  · rw [exec_of_plan_error (hplan.trans hp)] at h
    cases h
    exact ⟨rfl, rfl, rfl, rfl, rfl, .inr ⟨r, rfl⟩, memRead_of_mem_eq rfl⟩

end Sys2Proof.Machine
end

section
/-! PROOFS. LT and EQ (44_compare.md): each completes with the word 1 or 0, since a comparison never overflows. -/

namespace Sys2Proof.Machine

/-- Settles O20: each comparison always answers a word, and the storing shape writes it, whatever the sources. -/
theorem comparesComplete : Obligations.ComparesComplete := by
  intro s s1 s2 dest v1 v2 k h1 h2 hk
  have hlt : aluLt v1 v2 = if v1 < v2 then 1 else 0 := rfl
  have heq : aluEq v1 v2 = if v1 = v2 then 1 else 0 := rfl
  constructor
  · exact exec_store_of_reads (alu := fun x y => .ok (aluLt x y)) rfl h1 h2 hk (congrArg Except.ok hlt)
  · exact exec_store_of_reads (alu := fun x y => .ok (aluEq x y)) rfl h1 h2 hk (congrArg Except.ok heq)

end Sys2Proof.Machine
end

section
/-! PROOFS. HALT (45_halt.md): it always completes, and what it leaves unchanged. -/

namespace Sys2Proof.Machine

/-- Settles O25: HALT plans no effect and the outcome that halts, and never raises, so its commit is the answer. -/
theorem haltCompletes : Obligations.HaltCompletes := by
  intro s
  have hp : plan .halt s = .ok ({}, .halt) := rfl
  exact exec_of_plan_ok hp

/-- Settles O35: the one state HALT answers differs from the old in RUN_STATE and TICK alone, so its memory reads as
before. -/
theorem haltFrame : Obligations.HaltFrame := by
  intro s t h
  rw [haltCompletes s] at h
  cases h
  exact ⟨rfl, rfl, rfl, rfl, rfl, rfl, rfl, memRead_of_mem_eq rfl⟩

end Sys2Proof.Machine
end

section
/-! PROOFS. Exceptions (60_exceptions.md): the overflow of ADD and MUL under the policy fault, and the records of the
optional trace port. -/

namespace Sys2Proof.Machine

variable {s t : State} {i : Instr} {r : Raise}

/-! ## Overflow (R207) -/

/-- An instruction of the storing shape whose operands resolve and whose ALU raises takes the fault entry of that raise
(40_engine.md R114 to R119). -/
theorem exec_store_of_alu_error {alu : Int → Int → Except Raise Int} {s1 s2 : Param} {d v1 v2 : Int} {k : Nat}
    (hi : plan i s = storePlan alu s1 s2 d s) (h1 : Reads s s1 v1) (h2 : Reads s s2 v2) (hk : NamesCell s d k)
    (hr : alu v1 v2 = .error r) : exec i s = .next (faultEntry r s) := by
  have hp : plan i s = .error r := by rw [hi, storePlan_of_reads h1 h2 hk, hr]
  exact exec_of_plan_error hp

/-- Settles O30: under fault, a sum and a product outside the word range are the ALU's ArithmeticOverflow, raised after
both operands and the destination have resolved. -/
theorem overflowFaults : Obligations.OverflowFaults := by
  intro s s1 s2 dest v1 v2 k hpolicy h1 h2 hk
  constructor
  · intro hsum
    have hadd : aluAdd s.config v1 v2 = .error .arithmeticOverflow := fit_of_overflow hsum hpolicy
    exact exec_store_of_alu_error rfl h1 h2 hk hadd
  · intro hprod
    have hmul : aluMul s.config v1 v2 = .error .arithmeticOverflow := fit_of_overflow hprod hpolicy
    exact exec_store_of_alu_error rfl h1 h2 hk hmul

/-! ## The record of a step (R217) -/

/-- The outcome a record names, as the two tests of RUN_STATE after the step. -/
theorem traceOutcome_eq (t : State) :
    traceOutcome t =
      if t.runState = .halted then .halted else if t.runState = .faulted then .faulted else .completed := by
  cases h : t.runState <;> simp [traceOutcome, h]

/-- The fetched word is the content of the cell at IP, or 0 where there is no such cell (R209). -/
theorem fetchedWord_eq (s : State) : s.fetchedWord = (s.mem[s.ip]?).getD 0 := List.getD_eq_getElem?_getD

theorem traceAfter_of_absent (h : s.config.tracePort = .absent) (t : State) : traceAfter s t = t.trace := by
  simp only [traceAfter, h]

theorem traceAfter_of_present (h : s.config.tracePort = .present) (t : State) :
    traceAfter s t = t.trace ++ [traceRecord s t] := by
  simp only [traceAfter, h]

/-! ## The machine without its trace port -/

/-- The same machine built without the trace port (R9). -/
def State.withoutTracePort (s : State) : State := { s with config := { s.config with tracePort := .absent } }

/-- The trace port is no input of fetch, decode, resolve or execute (40_engine.md R125). -/
theorem stepPlan_withoutTracePort (s : State) : stepPlan s.withoutTracePort = stepPlan s :=
  stepPlan_of_inputs_eq rfl rfl rfl rfl rfl

/-- The end of a step writes no record itself, and ends the machine without the port alike: neither the commit nor the
fault entry looks at the port (40_engine.md R118, R119). -/
theorem finish_withoutTracePort (s : State) (x : Except Raise (Effects × StepOutcome)) :
    ∃ a, finish s x = .next a ∧ a.trace = s.trace ∧ finish s.withoutTracePort x = .next a.withoutTracePort := by
  cases x with
  | ok p => exact ⟨commit p.1 p.2 s, rfl, rfl, rfl⟩
  | error r => exact ⟨faultEntry r s, rfl, rfl, rfl⟩

/-- An enabled step emits its record after a state that holds the old records, and the machine without the port steps to
that state less its port (R217). -/
theorem step_withoutTracePort (he : s.stepEnabled = true) (h : step s = .next t) :
    ∃ a, t = emitTrace s a ∧ a.trace = s.trace ∧ step s.withoutTracePort = .next a.withoutTracePort := by
  obtain ⟨a, hfinish, htrace, hwithout⟩ := finish_withoutTracePort s (stepPlan s)
  have ht : step s = .next (emitTrace s a) := by rw [step_eq_finish he, hfinish]; rfl
  rw [ht] at h
  cases h
  refine ⟨a, rfl, htrace, ?_⟩
  have he' : s.withoutTracePort.stepEnabled = true := he
  rw [step_eq_finish he', stepPlan_withoutTracePort, hwithout, traced_of_absent rfl]

/-- Settles O49: the step is that of the machine without the port, with the record the port calls for after it. -/
theorem traceRecordsEachStep : Obligations.TraceRecordsEachStep := by
  intro s t he h
  obtain ⟨a, rfl, htrace, hwithout⟩ := step_withoutTracePort he h
  refine ⟨fun habsent => ?_, fun hpresent => ?_, a.withoutTracePort, hwithout, ?_⟩
  · rw [emitTrace_trace, traceAfter_of_absent habsent, htrace]
  · rw [emitTrace_trace, traceAfter_of_present hpresent, htrace, traceRecord, fetchedWord_eq, traceOutcome_eq]
    rfl
  · obtain ⟨-, hconfig, -⟩ := memLenAndConfigFixed s _ h
    rw [← hconfig]
    rfl

end Sys2Proof.Machine
end

section
/-! PROOFS. Reset and the host's side (70_reset_and_hazards.md): the answers of each host move, the result of a run, and
that the host's moves keep the invariants. -/

namespace Sys2Proof.Machine

variable {s t : State} {vs : List Int}

/-! ## The answers of a host move (R230, R234, R235, R240) -/

theorem load_while_running (h : s.runState = .running) (image : List Int) :
    hostMove (.load image) s = .fault .hostRace := if_pos h

theorem load_of_words (h : s.runState ≠ .running) (hvs : Memory.wf s.config.wordBits vs) :
    hostMove (.load vs) s = .next { s with mem := vs } := (if_neg h).trans (if_pos hvs)

theorem load_of_not_words (h : s.runState ≠ .running) (hvs : ¬ Memory.wf s.config.wordBits vs) :
    hostMove (.load vs) s = .refused .valueNotAWord := (if_neg h).trans (if_neg hvs)

theorem start_of_words (hvs : Memory.wf s.config.wordBits vs) : hostMove (.start vs) s = .next (runStart vs s) :=
  if_pos hvs

theorem start_of_not_words (hvs : ¬ Memory.wf s.config.wordBits vs) :
    hostMove (.start vs) s = .refused .valueNotAWord := if_neg hvs

theorem setStepEnable_answers (level : Bool) (s : State) :
    hostMove (.setStepEnable level) s = .next { s with stepEnable := level } := rfl

/-- What an answered host move did: it loaded words while no run was Running, started a run on words, or drove
`step_enable`. -/
theorem hostMove_next_cases {m : HostMove} (h : hostMove m s = .next t) :
    (∃ image, m = .load image ∧ s.runState ≠ .running ∧ Memory.wf s.config.wordBits image ∧
        t = { s with mem := image }) ∨
      (∃ inputs, m = .start inputs ∧ Memory.wf s.config.wordBits inputs ∧ t = runStart inputs s) ∨
      ∃ level, m = .setStepEnable level ∧ t = { s with stepEnable := level } := by
  cases m with
  | load image =>
    by_cases hrun : s.runState = .running
    · rw [load_while_running hrun] at h
      cases h
    · by_cases hvs : Memory.wf s.config.wordBits image
      · rw [load_of_words hrun hvs] at h
        cases h
        exact .inl ⟨image, rfl, hrun, hvs, rfl⟩
      · rw [load_of_not_words hrun hvs] at h
        cases h
  | start inputs =>
    by_cases hvs : Memory.wf s.config.wordBits inputs
    · rw [start_of_words hvs] at h
      cases h
      exact .inr (.inl ⟨inputs, rfl, hvs, rfl⟩)
    · rw [start_of_not_words hvs] at h
      cases h
  | setStepEnable level =>
    rw [setStepEnable_answers] at h
    cases h
    exact .inr (.inr ⟨level, rfl, rfl⟩)

/-! ## The invariants along the host's moves -/

/-- The empty fault record is the sound one of a run that is not Faulted (10_state.md R28 to R32). -/
theorem faultRecordSound_of_clear (hrun : s.runState ≠ .faulted) (h : s.fault = .clear) : FaultRecordSound s :=
  ⟨fun _ => h, fun hf => absurd hf hrun⟩

/-- A loaded image is checked word by word, and no bound on IP applies while no run is Running (R234, 10_state.md R23). -/
theorem load_keeps_sound (hrun : s.runState ≠ .running) (hvs : Memory.wf s.config.wordBits vs) (hs : Sound s) :
    Sound { s with mem := vs } := by
  obtain ⟨hconfig, ⟨-, hinq, houtq, hword⟩, -, htick, hfault⟩ := hs
  exact ⟨hconfig, ⟨hvs, hinq, houtq, hword⟩, fun h => absurd h hrun, htick, hfault⟩

/-- A run start needs only a sound configuration and memory: it sets IP, TICK, the queues and the fault registers itself
(R230, R231). -/
theorem runStart_sound (hconfig : s.config.Valid) (hmem : Memory.wf s.config.wordBits s.mem)
    (hvs : Memory.wf s.config.wordBits vs) : Sound (runStart vs s) := by
  have houtq : Memory.wf s.config.wordBits [] := List.forall_mem_nil _
  have hzero : 0 < 2 ^ s.config.tickBits := Nat.two_pow_pos _
  exact ⟨hconfig, ⟨hmem, hvs, houtq, fitsWord_zero _⟩, fun _ => Nat.zero_le _, ⟨hzero, hzero⟩,
    faultRecordSound_of_clear nofun rfl⟩

/-- No invariant speaks of the level of `step_enable` (40_engine.md R128). -/
theorem sound_setStepEnable (level : Bool) : Sound { s with stepEnable := level } ↔ Sound s := Iff.rfl

/-- Settles O56: the host boundary lets only words in, a load finds no run Running, and a start sets every register the
other invariants bound. -/
theorem hostMovesKeepSound : Obligations.HostMovesKeepSound := by
  intro m s t hs h
  obtain ⟨image, -, hrun, hvs, rfl⟩ | ⟨inputs, -, hvs, rfl⟩ | ⟨level, -, rfl⟩ := hostMove_next_cases h
  · exact load_keeps_sound hrun hvs hs
  · obtain ⟨hconfig, ⟨hmem, -⟩, -⟩ := hs
    exact runStart_sound hconfig hmem hvs
  · exact (sound_setStepEnable level).2 hs

/-! ## The result of a run (R236) -/

theorem result_of_ended (h : s.runState = .halted ∨ s.runState = .faulted) :
    s.result = some ⟨s.runState, s.mem, s.outq, s.inq, s.ip, s.tick, s.fault⟩ := by
  obtain h | h := h <;> simp only [State.result, h]

theorem result_of_not_ended (h : s.runState = .idle ∨ s.runState = .running) : s.result = none := by
  obtain h | h := h <;> simp only [State.result, h]

/-- Settles O57: each clause is the answer of one host move under its guard, or the result of one kind of state. -/
theorem hostSideRule : Obligations.HostSideRule := by
  refine ⟨?start, ?load, ?race, ?refused, ?stepEnable, ?result⟩
  case start => exact fun s inputs hvs => start_of_words hvs
  case load => exact fun s image hrun hvs => load_of_words hrun hvs
  case race => exact fun s image hrun => load_while_running hrun image
  case refused => exact fun s vs hvs => ⟨start_of_not_words hvs, fun hrun => load_of_not_words hrun hvs⟩
  case stepEnable => exact fun s level => setStepEnable_answers level s
  case result => exact fun s => ⟨result_of_ended, result_of_not_ended⟩

/-! ## Power-on and reset (R230, R232, R234) -/

/-- The host's boot sequence at power-on, up to the start of the run: the image is loaded, then the run started. -/
theorem boot_from_powerOn {c : Config} {image inputs : List Int} (himage : Memory.wf c.wordBits image)
    (hinputs : Memory.wf c.wordBits inputs) :
    hostMove (.load image) (State.powerOn c) = .next { State.powerOn c with mem := image } ∧
      hostMove (.start inputs) { State.powerOn c with mem := image } =
        .next (runStart inputs { State.powerOn c with mem := image }) :=
  ⟨load_of_words (s := State.powerOn c) nofun himage,
    start_of_words (s := { State.powerOn c with mem := image }) hinputs⟩

/-- Settles O58: the registers have the values written in the two states, and the boot sequence with the empty image and
no input ends at the reset state once `step_enable` is asserted. -/
theorem resetAndPowerOnValues : Obligations.ResetAndPowerOnValues := by
  have hempty : Memory.wf Config.default.wordBits [] := List.forall_mem_nil _
  obtain ⟨hload, hstart⟩ := boot_from_powerOn hempty hempty
  exact ⟨rfl, rfl, rfl, rfl, rfl, fun _ => ⟨rfl, rfl, rfl, rfl, rfl, rfl⟩, _, _, hload, hstart,
    setStepEnable_answers true _⟩

/-- At power-on every register is 0 and nothing is stored, so the invariants hold under any valid parameters (R232). -/
theorem powerOn_sound {c : Config} (hc : c.Valid) : Sound (State.powerOn c) := by
  have hempty : Memory.wf c.wordBits [] := List.forall_mem_nil _
  have hzero : 0 < 2 ^ c.tickBits := Nat.two_pow_pos _
  exact ⟨hc, ⟨hempty, hempty, hempty, fitsWord_zero _⟩, nofun, ⟨hzero, hzero⟩, faultRecordSound_of_clear nofun rfl⟩

/-- Settles O55: power-on meets the invariants under the default parameters, and the moves of the boot sequence that lead
from it to reset keep them. -/
theorem resetSound : Obligations.ResetSound := by
  obtain ⟨-, -, -, -, -, -, loaded, started, hload, hstart, henable⟩ := resetAndPowerOnValues
  have hpowerOn : Sound (State.powerOn Config.default) := powerOn_sound (by decide)
  have hloaded : Sound loaded := hostMovesKeepSound _ _ _ hpowerOn hload
  have hstarted : Sound started := hostMovesKeepSound _ _ _ hloaded hstart
  exact hostMovesKeepSound _ _ _ hstarted henable

end Sys2Proof.Machine
end
